-- ==== Sys2Proof/Word.lean ====
section
/-! DEFINITION. The word types of the engine: the three widths of the word algebra (40_word_algebra.md
R110) and the grouped values built from them. The operations on them are in `Machine/WordAlgebra.lean`. -/

namespace Sys2Proof

/-- A byte: a value of width 8 (R15, R110). -/
abbrev Byte := BitVec 8

/-- A word: a value of width 32 (R15, R110). -/
abbrev Word := BitVec 32

/-- A value of the width of the bit-length counter `LEN` (R29, R110). -/
abbrev LenWord := BitVec 64

/-- A value of the width of the cursor `CUR`, 7 bits (R28). -/
abbrev Cursor := BitVec 7

/-- A command word `CMD[11:0]` (R80, R81). -/
abbrev CmdWord := BitVec 12

/-- A digest as it stands on the response port, `DIGEST[159:0]` (R87, R89). -/
abbrev Digest := BitVec 160

/-- A message block, the 64 bytes of `BUF` (R27, R140). -/
abbrev Block := Vector Byte 64

/-- The five words `H[0..4]` of the digest state (R20). -/
abbrev DigestState := Vector Word 5

/-- The eighty words `W[0..79]` of a message schedule (R24). -/
abbrev Schedule := Vector Word 80

end Sys2Proof
end

