-- ==== Sys2Proof/Syntax.lean ====
section
/-! DEFINITION. The instructions of the engine: its four commands, one constructor per row of
spec/opcode_table.json (30_encoding.md R82). -/

namespace Sys2Proof

/-- The four commands (R82). The only operand is the message byte of `INPUT` (R83). -/
inductive Instr where
  /-- `INIT`: start a new message (R171). -/
  | init
  /-- `INPUT d`: feed one message byte (R172). -/
  | input (d : Byte)
  /-- `FINALIZE`: pad, encode the length, close the message (R173). -/
  | finalize
  /-- `RESULT`: close the message if it is open and present the digest (R175). -/
  | result
deriving DecidableEq, Repr

end Sys2Proof
end

