-- ==== Sys2Proof/WellFormed.lean ====
section
/-! DEFINITION. Well-formedness: of a command word, given as its two fields (30_encoding.md R81, R84), and
of an instruction. -/

namespace Sys2Proof

/-- The operation code is one of the four of R82; `0x4` to `0xF` are reserved (R84(a)). -/
def opcodeLegal (op : BitVec 4) : Bool :=
  decide (op.toNat ≤ 3)

/-- `DATA` is `0x00` for every operation but `INPUT` (R81, R84(b)). -/
def dataLegal (op : BitVec 4) (data : Byte) : Bool :=
  op == 0x1#4 || data == 0x00#8

/-- The two checks together: the fields of a word that is not illegal (R84). -/
def fieldsLegal (op : BitVec 4) (data : Byte) : Bool :=
  opcodeLegal op && dataLegal op data

/-- Every instruction is well-formed: all 256 values of the only operand are legal message bytes (R83), and
its width is part of its type (R121). -/
def Instr.wellFormed : Instr → Bool
  | .init => true
  | .input _ => true
  | .finalize => true
  | .result => true

end Sys2Proof
end

