-- ==== Sys2Proof/Decode.lean ====
section
/-! DEFINITION. The decoder, total on 12-bit command words (30_encoding.md R90), the encoder (R82), and the
pseudo-instructions `INPUTS` and `HASH` as lists of command words (R92, R93). -/

namespace Sys2Proof

/-- The field `OP = CMD[11:8]` (R81). -/
def opField (c : CmdWord) : BitVec 4 :=
  c.extractLsb 11 8

/-- The field `DATA = CMD[7:0]` (R81). -/
def dataField (c : CmdWord) : Byte :=
  c.extractLsb 7 0

/-- Why a word is illegal (R84). Both kinds are answered alike. -/
inductive DecodeError where
  /-- R84(a): `OP` in `0x4` to `0xF`. -/
  | reservedOpcode
  /-- R84(b): `OP` in `0x0`, `0x2`, `0x3` with `DATA ≠ 0x00`. -/
  | nonzeroData
deriving DecidableEq, Repr

/-- The decoder of R90. It reads no engine state. -/
def decode (c : CmdWord) : Except DecodeError Instr :=
  if opField c = 0x1#4 then .ok (.input (dataField c))
  else if opField c = 0x0#4 ∧ dataField c = 0x00#8 then .ok .init
  else if opField c = 0x2#4 ∧ dataField c = 0x00#8 then .ok .finalize
  else if opField c = 0x3#4 ∧ dataField c = 0x00#8 then .ok .result
  else if (opField c).toNat ≤ 3 then .error .nonzeroData
  else .error .reservedOpcode

/-- The encoder: the row of R82, `OP` in the high four bits and `DATA` in the low eight. -/
def encode : Instr → CmdWord
  | .init => 0x0#4 ++ 0x00#8
  | .input d => 0x1#4 ++ d
  | .finalize => 0x2#4 ++ 0x00#8
  | .result => 0x3#4 ++ 0x00#8

/-- `INPUTS <bytes>` (R92): one `INPUT` per byte, in order; the empty sequence is no command at all. -/
def inputsWords (m : List Byte) : List CmdWord :=
  m.map fun d => encode (.input d)

/-- `HASH <bytes>` (R93): `INIT`, then `INPUTS`, then `RESULT`. -/
def hashWords (m : List Byte) : List CmdWord :=
  encode .init :: inputsWords m ++ [encode .result]

/-- The command word that a row's bits stand for: the low `nbits` bits of `w`, on the twelve wires of the
command port. A command is one 12-bit word (R81, R86), so bit 0 of `w` is `CMD[0]` and there is no bit above
`CMD[11]` (log entry 15). -/
def tableCommand (nbits w : Nat) : CmdWord :=
  BitVec.ofNat 12 (w % 2 ^ nbits)

/-- The instruction the decoder reads from a row's bits. -/
def decodeTableWord (nbits w : Nat) : Option Instr :=
  match decode (tableCommand nbits w) with
  | .ok i => some i
  | .error _ => none

/-- `0000 00000000` is `INIT` (R82). -/
theorem decode_word_init : decode 0b000000000000#12 = .ok .init := by decide

/-- `0001 dddddddd` is `INPUT d`, here with `d = 0x61` (R82). -/
theorem decode_word_input : decode 0b000101100001#12 = .ok (.input 0x61#8) := by decide

/-- `0010 00000000` is `FINALIZE` (R82). -/
theorem decode_word_finalize : decode 0b001000000000#12 = .ok .finalize := by decide

/-- `0011 00000000` is `RESULT` (R82). -/
theorem decode_word_result : decode 0b001100000000#12 = .ok .result := by decide

end Sys2Proof
end

