-- ==== Sys2Proof/Machine/Registers.lean ====
section
/-! DEFINITION. The ephemeral registers of the datapath (10_state.md R23, R24, R30(c)), as types. -/

namespace Sys2Proof.Machine

/-- The five working variables `a` to `e` of one compression (R23). -/
structure WorkVars where
  a : Word
  b : Word
  c : Word
  d : Word
  e : Word
deriving DecidableEq, Repr, Inhabited

/-- The ephemeral registers together: the schedule `W[0..79]` (R24), the working variables and `temp` (R23),
and the step index `t` in 7 bits (R30(c)). They have a specified value only inside one `COMPRESS`. -/
structure Ephemeral where
  w    : Schedule
  vars : WorkVars
  temp : Word
  t    : BitVec 7
deriving DecidableEq, Repr, Inhabited

end Sys2Proof.Machine
end

