-- ==== Sys2Proof/Config.lean ====
section
/-! DEFINITION. The free values of the model. The spec leaves no implementation parameter open (00_scope.md
R10); what it leaves without a value is what the ephemeral registers hold between compressions. -/

namespace Sys2Proof

/-- FREE VALUE. What `W`, `a` to `e`, `temp` and `t` hold after the `n`-th event that leaves them unspecified
(10_state.md R23, R24, R30, R33(b), R35; 93_implementation_defined.md U5; log entry 7). It has no body:
nothing can be proved of it but that it is some value. -/
opaque Config.residue : Nat → Machine.Ephemeral

end Sys2Proof
end

