-- ==== Sys2Proof/Machine/Constants.lean ====
section
/-! DEFINITION. The two constant tables of the engine, `HINIT` and `K` (10_state.md R22, R25). They are
wiring, not state. -/

namespace Sys2Proof.Machine

/-- `HINIT[0..4]`, the initial digest state (R22; the spec supplies it from general knowledge, log entry 10). -/
def hinit : DigestState :=
  #v[0x67452301#32, 0xEFCDAB89#32, 0x98BADCFE#32, 0x10325476#32, 0xC3D2E1F0#32]

/-- `K[0..3]`, the round constants (R25, R159). -/
def roundConstants : Vector Word 4 :=
  #v[0x5A827999#32, 0x6ED9EBA1#32, 0x8F1BBCDC#32, 0xCA62C1D6#32]

/-- The padding marker byte `0x80` (R8, R174). -/
def markerByte : Byte := 0x80#8

end Sys2Proof.Machine
end

