-- ==== Sys2Proof/Machine/Memory.lean ====
section
/-! DEFINITION. The block buffer `BUF` as a memory: positions 0 to 63, one byte each (20_memory.md R50).

It is a list of (position, byte) pairs with rising positions. A position that is not listed has NO VALUE: the
spec gives `BUF` none after reset and suggests this treatment (R35, R58; 93_implementation_defined.md U4;
log entry 5). Since every byte differs from "no value", a written position is always listed. -/

namespace Sys2Proof.Machine

/-- The contents of the block buffer. -/
abbrev Memory := List Host.Cell

/-- The size of the only address space (R50). -/
def bufSize : Nat := 64

/-- The byte at a position, or `none` where nothing has been written. -/
def Memory.read : Memory → Nat → Option Byte
  | [], _ => none
  | (p, v) :: m, a => if p = a then some v else Memory.read m a

/-- Write the byte at a position, keeping the list in order. -/
def Memory.write : Memory → Nat → Byte → Memory
  | [], a, v => [(a, v)]
  | (p, u) :: m, a, v =>
    if a < p then (a, v) :: (p, u) :: m
    else if a = p then (a, v) :: m
    else (p, u) :: Memory.write m a v

/-- The positions of `m` rise strictly, from at least `lo` on, and all lie in the address space. -/
def Memory.wfFrom : Nat → Memory → Bool
  | _, [] => true
  | lo, (p, _) :: m => decide (lo ≤ p) && decide (p < bufSize) && Memory.wfFrom (p + 1) m

/-- The canonical form: positions strictly rising and below 64. -/
def Memory.wf (m : Memory) : Bool :=
  Memory.wfFrom 0 m

end Sys2Proof.Machine
end

