-- ==== Sys2Proof/Machine/State.lean ====
section
/-! DEFINITION. The state of the engine (10_state.md), the two ports as far as a step function needs them
(30_encoding.md R80), the reasons a step can stop, and the state after reset (R35). -/

namespace Sys2Proof.Machine

/-- The status of a response (R88, R201). `EmptyInput` and `WidthMismatch` are the source's names and are
never produced (R204, R205). -/
inductive Status where
  | ok
  | alreadyFinalized
  | emptyInput
  | widthMismatch
  | illegalCommand
deriving DecidableEq, Repr

/-- A response (R87). `digest` is `DIGEST` when `DVALID = 1` and has no value when `DVALID = 0`
(93_implementation_defined.md U6). -/
structure Response where
  status : Status
  digest : Option Digest
deriving DecidableEq, Repr

/-- What the host can do to the engine (70_reset_and_hazards.md R244). -/
inductive HostEvent where
  /-- The command port accepts a word and the command runs to completion (R96). -/
  | command (w : CmdWord)
  /-- Hardware reset between two commands (R230). -/
  | reset
  /-- The command port accepts a word and reset is applied while the command executes (R232). -/
  | abandoned (w : CmdWord)
deriving DecidableEq, Repr

/-- The state of the machine: the engine's registers and memory, then the host's side of the two ports. -/
structure State where
  /-- The digest state `H[0..4]` (R20). -/
  h : DigestState
  /-- The block buffer `BUF[0..63]` (R27). -/
  buf : Memory
  /-- The cursor `CUR`, 7 bits (R28). -/
  cur : Cursor
  /-- The bit-length counter `LEN`, 64 bits (R29). -/
  len : LenWord
  /-- The flag `COMPUTED`, 1 bit (R31). -/
  computed : Bool
  /-- The ephemeral registers `W`, `a` to `e`, `temp`, `t` (R23, R24, R30(c)). -/
  eph : Ephemeral
  /-- The host's events that the port has not accepted yet, oldest first (R96, R245; log entry 1). -/
  port : List HostEvent
  /-- The responses given so far, oldest first: the observation of a run (R245; log entry 2). -/
  responses : List Response
  /-- The model's own counter: the index of the next free value for `eph` (log entries 7 and 9). -/
  epoch : Nat
deriving DecidableEq, Repr

/-- Why the machine stops. Neither is reachable from reset (R50, R58); both are SAFE: the model stops where
the spec says the situation cannot arise. -/
inductive Fault where
  /-- `SCHEDULE` reads a position of `BUF` that holds no value. Raised by `State.readBlock`, so by `COMPRESS`
  inside `INPUT`, `FINALIZE` and `RESULT`, in states outside the invariant only. Safe (log entry 5). -/
  | unwrittenByte (pos : Nat)
  /-- A write to a position above 63. Raised by `State.writeByte`, so by `INPUT`, `FINALIZE` and `RESULT` when
  `CUR ≥ 64` before the command, which no run reaches. Safe (log entry 6). -/
  | noSuchPosition (pos : Nat)
deriving DecidableEq, Repr

/-- Why an instruction has no meaning. -/
inductive Refusal where
  /-- The instruction has no meaning in the model yet. Raised by nothing: all four commands are modelled. Safe. -/
  | notModelled (mnemonic : String)
deriving DecidableEq, Repr

/-- The ephemeral registers at reset. The spec gives them no value (R35); the model names zero (DESIGN CHOICE,
unsafe, log entry 8). -/
def Ephemeral.zero : Ephemeral where
  w := Vector.replicate 80 0#32
  vars := ⟨0#32, 0#32, 0#32, 0#32, 0#32⟩
  temp := 0#32
  t := 0#7

/-- The machine right after reset (R35, R230): no byte of `BUF` has a value and no host event is pending. -/
def State.reset : State where
  h := hinit
  buf := []
  cur := 0#7
  len := 0#64
  computed := false
  eph := Ephemeral.zero
  port := []
  responses := []
  epoch := 0

end Sys2Proof.Machine
end

