-- ==== Sys2Proof/Machine/Flags.lean ====
section
/-! DEFINITION. The engine's only flag, `COMPUTED` (10_state.md R31), the named states it stands for (R32),
and the codes of the response's status and `DVALID` (30_encoding.md R87, R88). There is no carry, zero, sign
or overflow flag (R31, R111). -/

namespace Sys2Proof.Machine

/-- `COMPUTED = 1`: the source's state `Finalized` (R32). -/
def State.finalized (s : State) : Bool :=
  s.computed

/-- Write `COMPUTED` (R31). -/
def State.setComputed (s : State) (v : Bool) : State :=
  { s with computed := v }

/-- The stored state of the region `Fresh` (R32): what reset and `INIT` leave. -/
def State.fresh (s : State) : Bool :=
  !s.computed && s.len == 0#64 && s.cur == 0#7 && s.h == hinit

/-- The stored state of the region `Accumulating` (R32): an open message of at least one byte. The regions are not
stored; after `2^61` bytes `LEN` wraps (R182) and the registers no longer tell the two open regions apart, which no
command needs to (R32). -/
def State.accumulating (s : State) : Bool :=
  !s.computed && !s.fresh

/-- `STATUS[2:0]` of a response (R88). -/
def Status.code : Status → BitVec 3
  | .ok => 0#3
  | .alreadyFinalized => 1#3
  | .emptyInput => 2#3
  | .widthMismatch => 3#3
  | .illegalCommand => 4#3

/-- `DVALID` of a response: 1 exactly when it carries a digest (R87). -/
def Response.dvalid (r : Response) : Bool :=
  r.digest.isSome

end Sys2Proof.Machine
end

