-- ==== Sys2Proof/Machine/WordAlgebra.lean ====
section
/-! DEFINITION. The word algebra (40_word_algebra.md): the only operations through which a data value is
computed (00_scope.md R9). Each is a pure function (R122); operand widths are part of the types, so a width
mismatch cannot be written (R121). -/

namespace Sys2Proof.Machine

/-- `ADD_w`, the wrap-around addition (R111). -/
def addW {w : Nat} (x y : BitVec w) : BitVec w :=
  x + y

/-- `AND_w` (R112). -/
def andW {w : Nat} (x y : BitVec w) : BitVec w :=
  x &&& y

/-- `OR_w` (R113). -/
def orW {w : Nat} (x y : BitVec w) : BitVec w :=
  x ||| y

/-- `XOR_w` (R114). -/
def xorW {w : Nat} (x y : BitVec w) : BitVec w :=
  x ^^^ y

/-- `NOT_w` (R115). -/
def notW {w : Nat} (x : BitVec w) : BitVec w :=
  ~~~x

/-- `SHL_w(x, n)`; 0 when `n ≥ w` (R116). -/
def shl {w : Nat} (x : BitVec w) (n : Nat) : BitVec w :=
  x <<< n

/-- `SHR_w(x, n)`, logical; 0 when `n ≥ w` (R117). -/
def shr {w : Nat} (x : BitVec w) (n : Nat) : BitVec w :=
  x >>> n

/-- `ROTL_w(x, n)`, the source's formula, for `0 ≤ n < w` only (R118; 93_implementation_defined.md U9). -/
def rotl {w : Nat} (x : BitVec w) (n : Nat) (_inRange : n < w := by decide) : BitVec w :=
  orW (shl x n) (shr x (w - n))

/-- `EXTRACT(x, hi, lo)`, written `x[hi:lo]`, for `w > hi ≥ lo` only (R119; U9). -/
def extract {w : Nat} (x : BitVec w) (hi lo : Nat) (_inRange : lo ≤ hi ∧ hi < w := by decide) :
    BitVec (hi - lo + 1) :=
  x.extractLsb hi lo

/-- `ZEXT_N(x)`, for `w ≤ N` only (R120; U9). -/
def zext {w : Nat} (n : Nat) (x : BitVec w) (_inRange : w ≤ n := by decide) : BitVec n :=
  x.setWidth n

end Sys2Proof.Machine
end

