-- ==== Sys2Proof/Machine/Operands.lean ====
section
/-! DEFINITION. The grouped operands and results of the engine, big-endian throughout (20_memory.md R53):
the words of a block, the bytes of the length field, the bytes of the digest. -/

namespace Sys2Proof.Machine

/-- `MemRead(4i, 4)` of a block: the `i`-th word, byte `4i` in the most significant bits (R53(a), R141). -/
def blockWord (b : Block) (i : Fin 16) : Word :=
  orW (orW (orW
    (shl (zext 32 (b[4 * i.val]'(by omega))) 24)
    (shl (zext 32 (b[4 * i.val + 1]'(by omega))) 16))
    (shl (zext 32 (b[4 * i.val + 2]'(by omega))) 8))
    (zext 32 (b[4 * i.val + 3]'(by omega)))

/-- The eight bytes of the length field in the order of positions 56 to 63: `LEN[63-8i : 56-8i]` (R53(b), R174). -/
def lengthBytes (len : LenWord) : List Byte :=
  [extract len 63 56, extract len 55 48, extract len 47 40, extract len 39 32,
   extract len 31 24, extract len 23 16, extract len 15 8, extract len 7 0]

/-- The four bytes of a state word, most significant first: `x[31-8j : 24-8j]` (R53(c), R176). -/
def wordBytes (x : Word) : List Byte :=
  [extract x 31 24, extract x 23 16, extract x 15 8, extract x 7 0]

/-- The 20 bytes `DG[0..19]` of the digest, word 0 first (R176). -/
def digestBytes (h : DigestState) : List Byte :=
  wordBytes h[0] ++ wordBytes h[1] ++ wordBytes h[2] ++ wordBytes h[3] ++ wordBytes h[4]

/-- Bytes on the digest port: the first byte in the most significant bits (R89). Each byte enters at the low
end and pushes the ones before it up. -/
def portOfBytes (bytes : List Byte) : Digest :=
  bytes.foldl (fun acc b => orW (shl acc 8) (zext 160 b)) 0#160

/-- `EXTRACT_DIGEST`: `DIGEST = DG[0] ‖ DG[1] ‖ … ‖ DG[19]` (R89, R176). -/
def extractDigest (h : DigestState) : Digest :=
  portOfBytes (digestBytes h)

end Sys2Proof.Machine
end

