-- ==== Sys2Proof/Machine/Schedule.lean ====
section
/-! DEFINITION. The message schedule expander `SCHEDULE` (41_message_schedule.md), a pure function of the
block (R140, R144). -/

namespace Sys2Proof.Machine

/-- `W[t]` from the words before it (R141 for `t ≤ 15`, R142 for `t ≥ 16`). `w` holds `W[0..t-1]`. -/
def scheduleNext (b : Block) (w : List Word) (t : Nat) : Word :=
  if ht : t < 16 then blockWord b ⟨t, ht⟩
  else rotl (xorW (xorW (xorW (w.getD (t - 3) 0#32) (w.getD (t - 8) 0#32)) (w.getD (t - 14) 0#32))
    (w.getD (t - 16) 0#32)) 1

/-- The first `n` words `W[0..n-1]`, computed in ascending order (R141, R142). -/
def scheduleWords (b : Block) : Nat → List Word
  | 0 => []
  | n + 1 =>
    let w := scheduleWords b n
    w ++ [scheduleNext b w n]

/-- The number of words computed is the number asked for. -/
theorem scheduleWords_length (b : Block) (n : Nat) : (scheduleWords b n).length = n := by
  induction n with
  | zero => rfl
  | succ n ih => simp [scheduleWords, ih]

/-- `SCHEDULE`: the eighty words `W[0..79]` of a block (R140). -/
def schedule (b : Block) : Schedule :=
  ⟨(scheduleWords b 80).toArray, by simp [scheduleWords_length]⟩

end Sys2Proof.Machine
end

