-- ==== Sys2Proof/Machine/Round.lean ====
section
/-! DEFINITION. The round-function datapath and the compression engine as pure functions
(42_compression_round.md). -/

namespace Sys2Proof.Machine

/-- `Ch(x, y, z) = (x∧y) ⊕ (¬x∧z)` (R154). -/
def ch (x y z : Word) : Word :=
  xorW (andW x y) (andW (notW x) z)

/-- `Parity(x, y, z) = x⊕y⊕z` (R157). -/
def parity (x y z : Word) : Word :=
  xorW (xorW x y) z

/-- `Maj(x, y, z) = (x∧y)⊕(x∧z)⊕(y∧z)` (R158). -/
def maj (x y z : Word) : Word :=
  xorW (xorW (andW x y) (andW x z)) (andW y z)

/-- `f_t`, selected by the range of 20 steps that `t` lies in (R151). -/
def roundFunction (t : Nat) (x y z : Word) : Word :=
  match t / 20 with
  | 0 => ch x y z
  | 1 => parity x y z
  | 2 => maj x y z
  | _ => parity x y z

/-- `K_t = K[floor(t/20)]` (R151). -/
def roundConstant (t : Nat) : Word :=
  roundConstants.getD (t / 20) 0#32

/-- `temp` of `STEP(t)`: `rotl(a, 5) + f_t(b, c, d) + e + W[t] + K_t` (R153). -/
def roundTemp (t : Nat) (wt : Word) (v : WorkVars) : Word :=
  addW (addW (addW (addW (rotl v.a 5) (roundFunction t v.b v.c v.d)) v.e) wt) (roundConstant t)

/-- `STEP(t)`: the parallel assignment `(a, b, c, d, e) <- (temp, a, rotl(b, 30), c, d)` (R153). -/
def roundStep (t : Nat) (wt : Word) (v : WorkVars) : WorkVars where
  a := roundTemp t wt v
  b := v.a
  c := rotl v.b 30
  d := v.c
  e := v.d

/-- The working variables after `STEP(0)` to `STEP(n-1)`, in ascending order (R156, R161). -/
def roundSteps (w : Schedule) (v : WorkVars) : Nat → WorkVars
  | 0 => v
  | n + 1 => roundStep n (w.getD n 0#32) (roundSteps w v n)

/-- The working variables before step 0: copies of `H[0..4]` (R152, log entry 10). -/
def loadVars (h : DigestState) : WorkVars :=
  ⟨h[0], h[1], h[2], h[3], h[4]⟩

/-- The final addition, word by word (R155). -/
def feedForward (h : DigestState) (v : WorkVars) : DigestState :=
  #v[addW h[0] v.a, addW h[1] v.b, addW h[2] v.c, addW h[3] v.d, addW h[4] v.e]

/-- `compress(h, B)`: what `COMPRESS` leaves in `H` (R156, R160). -/
def compressBlock (h : DigestState) (b : Block) : DigestState :=
  feedForward h (roundSteps (schedule b) (loadVars h) 80)

end Sys2Proof.Machine
end

