-- ==== Sys2Proof/Machine/Ops.lean ====
section
/-! DEFINITION. The named operations over the state: register writes, reads and writes of `BUF`, the response
and the error response, the internal operations `COMPRESS`, `PAD` and `DO_FINALIZE`, and hardware reset. -/

namespace Sys2Proof.Machine

/-! ### Register writes -/

/-- `H[0..4] <- h` (R21). -/
def State.setH (s : State) (h : DigestState) : State :=
  { s with h := h }

/-- `CUR <- v` (R28). -/
def State.setCur (s : State) (v : Cursor) : State :=
  { s with cur := v }

/-- `LEN <- v` (R29). -/
def State.setLen (s : State) (v : LenWord) : State :=
  { s with len := v }

/-- Replace the contents of `BUF`. -/
def State.setBuf (s : State) (m : Memory) : State :=
  { s with buf := m }

/-- The ephemeral registers take an unspecified value, the next free value of `Config.residue` (R23, R24, R30,
R33(b); log entry 7). -/
def State.scrambleEph (s : State) : State :=
  { s with eph := Config.residue s.epoch, epoch := s.epoch + 1 }

/-- The port accepts the oldest event: `rest` is what the host has still to present (R96). -/
def State.setPort (s : State) (rest : List HostEvent) : State :=
  { s with port := rest }

/-! ### Responses and errors -/

/-- The response port gives `r`: the one response of the command (R80, R96). -/
def State.respond (s : State) (r : Response) : State :=
  { s with responses := s.responses ++ [r] }

/-- `respond OK`, with no digest (R14, R87). -/
def State.respondOk (s : State) : State :=
  s.respond ⟨.ok, none⟩

/-- `respond OK with DIGEST = v`, with `DVALID = 1` (R14, R87). -/
def State.respondDigest (s : State) (v : Digest) : State :=
  s.respond ⟨.ok, some v⟩

/-- `raise <Error>`, the engine's whole "trap entry" (R14, R209): the error response, and nothing of the
engine's state changes. There is nothing to return from (R210). -/
def State.raise (s : State) (e : Status) : State :=
  s.respond ⟨e, none⟩

/-! ### The block buffer -/

/-- `MemWrite(pos, 1, v)` (R13). A position above 63 does not exist (R50). -/
def State.writeByte (s : State) (pos : Nat) (v : Byte) : Except Fault State :=
  if pos < bufSize then .ok (s.setBuf (s.buf.write pos v)) else .error (.noSuchPosition pos)

/-- `MemWrite(pos, n, v)` for a value given as its `n` bytes, most significant first: each at the next
position (R13, R53(b)). -/
def State.writeBytes (s : State) (pos : Nat) : List Byte → Except Fault State
  | [] => .ok s
  | v :: vs => do
    let s ← s.writeByte pos v
    s.writeBytes (pos + 1) vs

/-- The first position of `BUF` that holds no value. -/
def State.firstUnwritten (s : State) : Option Nat :=
  (List.range bufSize).find? fun p => (s.buf.read p).isNone

/-- The contents of `BUF` as a block. It is the block that `SCHEDULE` reads when every position holds a value, and
is asked for then only (`State.readBlock`). -/
def State.blockBytes (s : State) : Block :=
  Vector.ofFn fun i => (s.buf.read i.val).getD 0x00#8

/-- The 64 bytes that `SCHEDULE` reads (R140, R141). A byte that was never written has no value to read
(R58; log entry 5). -/
def State.readBlock (s : State) : Except Fault Block :=
  match s.firstUnwritten with
  | some p => .error (.unwrittenByte p)
  | none => .ok s.blockBytes

/-- `BUF[CUR] <- v; CUR <- CUR + 1`, the one way a byte enters the current block (R58, R172, R174). -/
def State.putByte (s : State) (v : Byte) : Except Fault State := do
  let t ← s.writeByte s.cur.toNat v
  return t.setCur (t.cur + 1#7)

/-- `n` bytes `0x00` put at the cursor, one after another. -/
def State.putZeros (s : State) : Nat → Except Fault State
  | 0 => .ok s
  | n + 1 => do
    let s ← s.putByte 0x00#8
    s.putZeros n

/-- `while CUR < limit: BUF[CUR] <- 0x00; CUR <- CUR + 1` (R174): the loop runs `limit - CUR` times. -/
def State.fillTo (s : State) (limit : Nat) : Except Fault State :=
  s.putZeros (limit - s.cur.toNat)

/-! ### Compression, padding, finalization -/

/-- `COMPRESS` (R150, R156): `H` becomes `compress(H, BUF)` and `CUR` becomes 0; the ephemeral registers are
left with no specified value. It reads `BUF` and does not write it, and touches neither `LEN` nor `COMPUTED`. -/
def State.compress (s : State) : Except Fault State := do
  let b ← s.readBlock
  return ((s.setH (compressBlock s.h b)).setCur 0#7).scrambleEph

/-- The first half of `PAD` (R174): the marker byte, and zero bytes up to position 56, completing and
compressing the block first when the length field does not fit behind the marker. -/
def State.padToLength (s : State) : Except Fault State :=
  if s.cur.toNat ≥ 56 then do
    let s ← s.putByte markerByte
    let s ← s.fillTo 64
    let s ← s.compress
    s.fillTo 56
  else do
    let s ← s.putByte markerByte
    s.fillTo 56

/-- `PAD`, the padding and length-encoding controller (R174): the length field goes to positions 56 to 63 and
the last block is compressed. -/
def State.pad (s : State) : Except Fault State := do
  let s ← s.padToLength
  let s ← s.writeBytes 56 (lengthBytes s.len)
  (s.setCur 64#7).compress

/-- `DO_FINALIZE` (R173), shared by `FINALIZE` and `RESULT`: nothing when `COMPUTED = 1`. -/
def State.doFinalize (s : State) : Except Fault State :=
  if s.finalized then .ok s
  else do
    let s ← s.pad
    return (s.setLen 0#64).setComputed true

/-! ### Reset -/

/-- `H <- HINIT; CUR <- 0; LEN <- 0; COMPUTED <- 0`: the effect that `INIT` and reset share (R171, R230). -/
def State.loadInitial (s : State) : State :=
  (((s.setH hinit).setCur 0#7).setLen 0#64).setComputed false

/-- Hardware reset (R230, R232, R35): the initial state is loaded, and `BUF` and the ephemeral registers are
left unspecified, so no byte of `BUF` has a value (log entry 11). It gives no response. -/
def State.hardwareReset (s : State) : State :=
  (s.loadInitial.setBuf []).scrambleEph

/-! ### Outcomes -/

/-- The outcome of a command: the state it answers, or the fault it stops on. -/
def outcome : Except Fault State → Host.Outcome State Fault Refusal
  | .ok s => .next s
  | .error f => .fault f

end Sys2Proof.Machine
end

