-- ==== Sys2Proof/Machine/Hasher.lean ====
section
/-! DEFINITION. The meanings of the four commands (43_hasher_commands.md), and of a word that is none of them
(60_exceptions.md R206). -/

namespace Sys2Proof.Machine

/-- `INIT` (R171): legal in every state; `BUF` is not written. -/
def execInit (s : State) : Host.Outcome State Fault Refusal :=
  .next s.loadInitial.respondOk

/-- `BUF[CUR] <- d; CUR <- CUR + 1; LEN <- LEN + 8; if CUR == 64: call COMPRESS()`: the lines of `INPUT d`
after its check (R172). -/
def State.feedByte (s : State) (d : Byte) : Except Fault State := do
  let s ← s.putByte d
  let s := s.setLen (addW s.len 8#64)
  if s.cur = 64#7 then s.compress else return s

/-- `INPUT d` (R172): refused with `AlreadyFinalized` when `COMPUTED = 1` (R202). -/
def execInput (d : Byte) (s : State) : Host.Outcome State Fault Refusal :=
  if s.finalized then .next (s.raise .alreadyFinalized)
  else outcome (do
    let s ← s.feedByte d
    return s.respondOk)

/-- `FINALIZE` (R173): no digest in the response (R87). -/
def execFinalize (s : State) : Host.Outcome State Fault Refusal :=
  outcome (do
    let s ← s.doFinalize
    return s.respondOk)

/-- `RESULT` (R175): finalize if needed, then present the digest. -/
def execResult (s : State) : Host.Outcome State Fault Refusal :=
  outcome (do
    let s ← s.doFinalize
    return s.respondDigest (extractDigest s.h))

/-- An illegal word (R84, R206): answered `IllegalCommand` in every state, with no state change. -/
def execIllegal (s : State) : Host.Outcome State Fault Refusal :=
  .next (s.raise .illegalCommand)

/-- One accepted command word: decode first, then the command (R90, R208). The meaning of a legal word is given
as `run`, so that the fetch of a word stays apart from the table of meanings. -/
def execWord (run : Instr → State → Host.Outcome State Fault Refusal) (w : CmdWord) (s : State) :
    Host.Outcome State Fault Refusal :=
  match decode w with
  | .ok i => run i s
  | .error _ => execIllegal s

end Sys2Proof.Machine
end

