-- ==== Sys2Proof/Machine/Dispatch.lean ====
section
/-! DEFINITION. One arm per command (30_encoding.md R82), each one call of its meaning. -/

namespace Sys2Proof.Machine

def exec (i : Instr) (s : State) : Host.Outcome State Fault Refusal :=
  match i with
  -- 43_hasher_commands.md R171
  | .init => Sys2Proof.Machine.execInit s
  -- 43_hasher_commands.md R172
  | .input d => Sys2Proof.Machine.execInput d s
  -- 43_hasher_commands.md R173
  | .finalize => Sys2Proof.Machine.execFinalize s
  -- 43_hasher_commands.md R175
  | .result => Sys2Proof.Machine.execResult s

end Sys2Proof.Machine
end

