-- ==== Sys2Proof/Machine/Step.lean ====
section
/-! DEFINITION. One step of the machine: the port accepts the host's oldest event and the engine runs it to
completion (00_scope.md R19, 30_encoding.md R96). -/

namespace Sys2Proof.Machine

/-- One step. With no event pending the engine holds its state and waits (R245, R218; log entry 3). A command
abandoned by a reset leaves what the reset leaves, and gives no response (R232; log entry 11). -/
def step (s : State) : Host.Outcome State Fault Refusal :=
  match s.port with
  | [] => .next s
  | .command w :: rest => execWord exec w (s.setPort rest)
  | .reset :: rest => .next (s.setPort rest).hardwareReset
  | .abandoned _ :: rest => .next (s.setPort rest).hardwareReset

/-- The command word with bits `w`, presented by the host as the next event on the command port: the engine has
no program counter and fetches from nowhere else (R30, R96; log entry 4). -/
def State.withFetchWord (s : State) (nbits w : Nat) : State :=
  s.setPort (.command (tableCommand nbits w) :: s.port)

end Sys2Proof.Machine
end

