-- ==== Sys2Proof/Machine/Message.lean ====
section
/-! DEFINITION. The padded message and the digest of a whole message, as pure functions of its bytes
(43_hasher_commands.md R180, R181). Claims about whole messages compare the machine with these. -/

namespace Sys2Proof.Machine

/-- The number `z` of zero bytes: the least that makes the padded length a multiple of 64, `(55 - n) mod 64`
(R181), with 64 added before the subtraction so that it never passes below zero. -/
def paddingZeros (n : Nat) : Nat :=
  (64 + 55 - n % 64) % 64

/-- `m ‖ 0x80 ‖ 0x00^z ‖ L` with `L` the bit length as 8 big-endian bytes (R181). -/
def paddedMessage (m : List Byte) : List Byte :=
  m ++ [markerByte] ++ List.replicate (paddingZeros m.length) 0x00#8 ++ lengthBytes (BitVec.ofNat 64 (8 * m.length))

/-- The `k`-th 64-byte piece of a byte string. -/
def pieceAt (bytes : List Byte) (k : Nat) : Block :=
  Vector.ofFn fun i => bytes.getD (64 * k + i.val) 0x00#8

/-- The 64-byte pieces of a byte string, in order (R181). -/
def pieces (bytes : List Byte) : List Block :=
  (List.range (bytes.length / 64)).map (pieceAt bytes)

/-- `H` after finalization: `compress` folded over the padded message's blocks from `HINIT` (R160, R181). -/
def messageState (m : List Byte) : DigestState :=
  (pieces (paddedMessage m)).foldl compressBlock hinit

/-- The digest of a message (R89, R181). -/
def messageDigest (m : List Byte) : Digest :=
  extractDigest (messageState m)

/-- The number of compressions of a message of `n` bytes: `floor((n + 8) / 64) + 1` (R180). -/
def compressionCount (n : Nat) : Nat :=
  (n + 8) / 64 + 1

end Sys2Proof.Machine
end

