-- ==== Sys2Proof/Safety.lean ====
section
/-! DEFINITION. What holds at every command boundary (10_state.md R34, 20_memory.md R58), what the host can tell
apart (R33), and the words claims about runs use. -/

namespace Sys2Proof.Machine

/-- The bytes of the current block received so far have values: what finalization needs of `BUF` (R28, R58). -/
def State.Written (s : State) : Prop :=
  ∀ p, p < s.cur.toNat → (s.buf.read p).isSome = true

/-- The invariant of every command boundary: R34(i), (ii), (iii), the canonical form of `BUF`, and R58's discipline,
that every position below the cursor has been written. -/
structure State.Inv (s : State) : Prop where
  /-- `BUF` is in canonical form, inside the address space (R50). -/
  bufWf : s.buf.wf = true
  /-- `0 ≤ CUR ≤ 63` (R34(i)). -/
  curRange : s.cur.toNat ≤ 63
  /-- The bytes of the current block received so far have values (R28, R58). -/
  written : s.Written
  /-- `LEN mod 8 = 0` (R34(ii)). -/
  lenBytes : s.len.toNat % 8 = 0
  /-- If `COMPUTED = 1` then `CUR = 0` and `LEN = 0` (R34(iii)). -/
  closed : s.computed = true → s.cur = 0#7 ∧ s.len = 0#64

/-- Two states that differ only in what no sequence of commands can observe (R33): stale bytes of `BUF` at and
above the cursor, and the ephemeral registers. -/
structure State.SameVisible (s t : State) : Prop where
  h : s.h = t.h
  cur : s.cur = t.cur
  len : s.len = t.len
  computed : s.computed = t.computed
  port : s.port = t.port
  responses : s.responses = t.responses
  block : ∀ p, p < s.cur.toNat → s.buf.read p = t.buf.read p

/-- The byte at a position of the current block when the message ends here: the bytes received so far, the marker
byte right after the last of them, then zeros (R174). -/
def State.tailByte (s : State) (p : Nat) : Byte :=
  if p < s.cur.toNat then (s.buf.read p).getD 0x00#8
  else if p = s.cur.toNat then 0x80#8
  else 0x00#8

/-- The block completed behind the marker without a length field: the first of the two blocks that a finalization
with `CUR ≥ 56` compresses (R174). -/
def State.markedBlock (s : State) : Block :=
  Vector.ofFn fun i => s.tailByte i.val

/-- The last block of the message (R57): `LEN`, most significant byte first, in positions 56 to 63, and before it
what is left of the message and its marker, or only zeros when those went into the block before. -/
def State.lastBlock (s : State) : Block :=
  Vector.ofFn fun i =>
    if i.val < 56 then (if s.cur.toNat ≤ 55 then s.tailByte i.val else 0x00#8)
    else (s.len >>> (8 * (63 - i.val))).setWidth 8

/-- The digest state that finalization leaves: one compression, or two when `CUR ≥ 56` (R174, R180). -/
def State.closedH (s : State) : DigestState :=
  if s.cur.toNat ≤ 55 then compressBlock s.h s.lastBlock
  else compressBlock (compressBlock s.h s.markedBlock) s.lastBlock

/-- The host presents a list of command words, before whatever it presents later (R245). -/
def State.present (s : State) (ws : List CmdWord) : State :=
  { s with port := ws.map HostEvent.command ++ s.port }

/-- The state after `n` steps, or the first stop. -/
def State.run (n : Nat) (s : State) : Host.Outcome State Fault Refusal :=
  Sys2Proof.core.run n s

/-- `INPUTS m` (R92): the host presents one `INPUT` per byte and the engine accepts them all. -/
def State.inputs (s : State) (m : List Byte) : Host.Outcome State Fault Refusal :=
  (s.present (inputsWords m)).run m.length

/-- One `INPUTS` per chunk, each presented to the state that the one before it left (R178). -/
def State.inputsEach (s : State) : List (List Byte) → Host.Outcome State Fault Refusal
  | [] => .next s
  | m :: chunks =>
    match s.inputs m with
    | .next t => t.inputsEach chunks
    | .fault f => .fault f
    | .refused r => .refused r

/-- A safe outcome: the machine goes on. The spec has no deadlock, no stuck state and no hang (R245). -/
def goesOn (o : Host.Outcome State Fault Refusal) : Prop :=
  ∃ t, o = .next t

end Sys2Proof.Machine
end

