-- ==== Sys2Proof/Certificates/Slice0/Obligations.lean ====
section
/-! DEFINITION. The statements for the provers, in the order of spec/: encoding, word algebra, schedule, compression,
memory and byte order, the four commands, what every command keeps, the step, reset, the invariant, whole messages. -/

open Sys2Proof Sys2Proof.Machine

/-! ### Encoding -/

/-- A few words written out from the encodings of 30_encoding.md R82, two of each legal kind and three illegal ones
(95_test_vectors.md section 2.6). -/
def Obligations.SampleCommandWordsDecode : Prop :=
  decode 0b000000000000#12 = .ok .init ∧ decode 0b000100000000#12 = .ok (.input 0x00#8) ∧
    decode 0b000110000000#12 = .ok (.input 0x80#8) ∧ decode 0b001000000000#12 = .ok .finalize ∧
    decode 0b001100000000#12 = .ok .result ∧ decode 0b000000000001#12 = .error .nonzeroData ∧
    decode 0b001000000001#12 = .error .nonzeroData ∧ decode 0b010000000000#12 = .error .reservedOpcode

/-- Decoding the word of a well-formed command gives the command back, with its operand, and a word that decodes is
the word of the command it decodes to (30_encoding.md R81, R82, R83, R90). -/
def Obligations.DecodingAndEncodingAgree : Prop :=
  (∀ i : Instr, i.wellFormed = true → decode (encode i) = .ok i) ∧
    ∀ (c : CmdWord) (i : Instr), decode c = .ok i → encode i = c

/-- A word selects a row of the opcode map exactly when `c ∧ mask = match` (30_encoding.md R82): `match` and `mask`
of the four rows, the operand of `INPUT` being the low eight bits as they stand (R83). No word matches two rows, since
a word decodes to one command, and the rows cover 259 of the 4096 words. -/
def Obligations.WordsSelectTheirRowByMatchAndMask : Prop :=
  (∀ c : CmdWord,
    (decode c = .ok .init ↔ c &&& 0xFFF#12 = 0x000#12) ∧
    (∀ d : Byte, decode c = .ok (.input d) ↔ c &&& 0xF00#12 = 0x100#12 ∧ d = c.setWidth 8) ∧
    (decode c = .ok .finalize ↔ c &&& 0xFFF#12 = 0x200#12) ∧
    (decode c = .ok .result ↔ c &&& 0xFFF#12 = 0x300#12)) ∧
  ((List.range 4096).filter fun n => (decodeTableWord 12 n).isSome).length = 259

/-- The illegal words are those with `OP` in 4 to F, and those with `OP` in 0, 2, 3 and non-zero `DATA`; there are
3072 and 765 of them (30_encoding.md R84). `OP` is `c / 256` and `DATA` is `c mod 256` (R81). -/
def Obligations.IllegalWordsAreExactlyTheUnlistedOnes : Prop :=
  (∀ c : CmdWord, (∃ e, decode c = .error e) ↔
    4 ≤ c.toNat / 256 ∨ ((c.toNat / 256 = 0 ∨ c.toNat / 256 = 2 ∨ c.toNat / 256 = 3) ∧ c.toNat % 256 ≠ 0)) ∧
  ((List.range 4096).filter fun n => decode (BitVec.ofNat 12 n) == .error .reservedOpcode).length = 3072 ∧
  ((List.range 4096).filter fun n => decode (BitVec.ofNat 12 n) == .error .nonzeroData).length = 765

/-- An illegal word is answered `IllegalCommand`, code 4, with `DVALID = 0`, in every state, finalized or not, and
nothing but the two ports changes (60_exceptions.md R206, 30_encoding.md R84). -/
def Obligations.IllegalWordIsAnsweredWithNoStateChange : Prop :=
  ∀ (s : State) (c : CmdWord) (rest : List HostEvent), s.port = .command c :: rest →
    (4 ≤ c.toNat / 256 ∨ ((c.toNat / 256 = 0 ∨ c.toNat / 256 = 2 ∨ c.toNat / 256 = 3) ∧ c.toNat % 256 ≠ 0)) →
    step s = .next { s with port := rest, responses := s.responses ++ [⟨.illegalCommand, none⟩] } ∧
      Status.illegalCommand.code = 4#3

/-! ### Word algebra -/

/-- The operations of the word algebra on unsigned integers modulo `2^w`, and bit by bit, at every width
(40_word_algebra.md R111 to R117). -/
def Obligations.WordAlgebraIsUnsignedArithmetic : Prop :=
  ∀ (w : Nat) (x y : BitVec w),
    (addW x y).toNat = (x.toNat + y.toNat) % 2 ^ w ∧
    (∀ i, i < w → (andW x y).getLsbD i = (x.getLsbD i && y.getLsbD i)) ∧
    (∀ i, i < w → (orW x y).getLsbD i = (x.getLsbD i || y.getLsbD i)) ∧
    (∀ i, i < w → (xorW x y).getLsbD i = (x.getLsbD i != y.getLsbD i)) ∧
    (notW x).toNat = 2 ^ w - 1 - x.toNat ∧
    (∀ n, (shl x n).toNat = (x.toNat * 2 ^ n) % 2 ^ w) ∧
    (∀ n, (shr x n).toNat = x.toNat / 2 ^ n) ∧
    (∀ n, w ≤ n → shl x n = 0#w ∧ shr x n = 0#w)

/-- `EXTRACT` is `floor(x / 2^lo) mod 2^(hi-lo+1)` and `ZEXT` keeps the unsigned integer, wherever they are defined
(40_word_algebra.md R119, R120, which the spec infers from their uses). -/
def Obligations.ExtractAndZeroExtendAreUnsigned : Prop :=
  ∀ (w : Nat) (x : BitVec w),
    (∀ (hi lo : Nat) (h : lo ≤ hi ∧ hi < w), (extract x hi lo h).toNat = (x.toNat / 2 ^ lo) % 2 ^ (hi - lo + 1)) ∧
    (∀ (n : Nat) (h : w ≤ n), (zext n x h).toNat = x.toNat)

/-- `ROTL_w(x, n)` for `0 ≤ n < w` moves bit `i` to bit `(i + n) mod w`; a rotation by 0 changes nothing; its two terms
never overlap, so they may equally be joined by `⊕` or `+`; all ones and all zeros stay (40_word_algebra.md R118). -/
def Obligations.RotateLeftMovesEveryBit : Prop :=
  ∀ (w n : Nat) (x : BitVec w) (h : n < w),
    (∀ i, i < w → (rotl x n h).getLsbD ((i + n) % w) = x.getLsbD i) ∧
    rotl x n h = shl x n ||| shr x (w - n) ∧
    (n = 0 → rotl x n h = x) ∧
    shl x n &&& shr x (w - n) = 0#w ∧
    rotl x n h = shl x n ^^^ shr x (w - n) ∧ rotl x n h = shl x n + shr x (w - n) ∧
    rotl (BitVec.allOnes w) n h = BitVec.allOnes w ∧ rotl 0#w n h = 0#w

/-- `ROTL` distributes over `XOR`, and two rotations are one by the sum of the amounts modulo `w`
(40_word_algebra.md R124). -/
def Obligations.RotationLaws : Prop :=
  ∀ (w m n : Nat) (x y : BitVec w) (hm : m < w) (hn : n < w),
    rotl (xorW x y) n hn = xorW (rotl x n hn) (rotl y n hn) ∧
      rotl (rotl x m hm) n hn = rotl x ((m + n) % w) (Nat.mod_lt _ (Nat.zero_lt_of_lt hn))

/-! ### Message schedule -/

/-- The eighty words of a block: the first sixteen are its 4-byte groups, big-endian (41_message_schedule.md R141,
20_memory.md R53(a)); each later one is the rotation by 1 of the `⊕` of the words 3, 8, 14 and 16 places before it
(R142). -/
def Obligations.ScheduleFollowsItsRecurrence : Prop :=
  ∀ b : Block,
    (∀ (i : Nat) (h : i < 16), (schedule b)[i] =
      b[4 * i] ++ b[4 * i + 1] ++ b[4 * i + 2] ++ b[4 * i + 3]) ∧
    (∀ (t : Nat) (h16 : 16 ≤ t) (h : t < 80), (schedule b)[t] =
      ((schedule b)[t - 3] ^^^ (schedule b)[t - 8] ^^^ (schedule b)[t - 14] ^^^ (schedule b)[t - 16]).rotateLeft 1)

/-- The map from a block to its schedule is linear over bits, so the all-zero block has the all-zero schedule
(41_message_schedule.md R142). -/
def Obligations.ScheduleIsLinearOverBits : Prop :=
  (∀ (x y : Block) (t : Nat) (h : t < 80),
    (schedule (Vector.ofFn fun i => x[i.val] ^^^ y[i.val]))[t] = (schedule x)[t] ^^^ (schedule y)[t]) ∧
  ∀ (t : Nat) (h : t < 80), (schedule (Vector.replicate 64 0x00#8))[t] = 0#32

/-! ### Compression -/

/-- `Ch` chooses, `Parity` is the odd-count bit, `Maj` is the majority, each bit by bit; the terms of `Ch` may be joined
by `∨` or `+` and those of `Maj` by `∨`, but not by `+` (42_compression_round.md R154, R157, R158). -/
def Obligations.RoundFunctionsWorkBitByBit : Prop :=
  (∀ x y z : Word,
    (∀ i, i < 32 → (ch x y z).getLsbD i = if x.getLsbD i then y.getLsbD i else z.getLsbD i) ∧
    (∀ i, i < 32 → (parity x y z).getLsbD i = ((x.getLsbD i != y.getLsbD i) != z.getLsbD i)) ∧
    (∀ i, i < 32 → (maj x y z).getLsbD i =
      ((x.getLsbD i && y.getLsbD i) || (x.getLsbD i && z.getLsbD i) || (y.getLsbD i && z.getLsbD i))) ∧
    ch x y z = (x &&& y) ||| (~~~x &&& z) ∧ ch x y z = (x &&& y) + (~~~x &&& z) ∧
    maj x y z = (x &&& y) ||| (x &&& z) ||| (y &&& z)) ∧
  ∃ x y z : Word, maj x y z ≠ (x &&& y) + (x &&& z) + (y &&& z)

/-- The round function and the round constant of each of the four ranges of twenty steps (42_compression_round.md R151). -/
def Obligations.FunctionAndConstantFollowTheStepRange : Prop :=
  ∀ (t : Nat) (x y z : Word),
    (t ≤ 19 → roundFunction t x y z = ch x y z ∧ roundConstant t = 0x5A827999#32) ∧
    (20 ≤ t → t ≤ 39 → roundFunction t x y z = parity x y z ∧ roundConstant t = 0x6ED9EBA1#32) ∧
    (40 ≤ t → t ≤ 59 → roundFunction t x y z = maj x y z ∧ roundConstant t = 0x8F1BBCDC#32) ∧
    (60 ≤ t → t ≤ 79 → roundFunction t x y z = parity x y z ∧ roundConstant t = 0xCA62C1D6#32)

/-- One step: the new `a` is the sum modulo `2^32` of the old `a` rotated left by 5, `f_t(b, c, d)`, `e`, `W[t]` and
`K_t`; the other four move along, with `b` rotated left by 30 on its way to `c` (42_compression_round.md R153). -/
def Obligations.StepComputesTheSourceFormula : Prop :=
  ∀ (t : Nat) (wt : Word) (v : WorkVars), t < 80 →
    (roundStep t wt v).a.toNat =
      ((v.a.rotateLeft 5).toNat + (roundFunction t v.b v.c v.d).toNat + v.e.toNat + wt.toNat +
        (roundConstant t).toNat) % 2 ^ 32 ∧
    (roundStep t wt v).b = v.a ∧ (roundStep t wt v).c = v.b.rotateLeft 30 ∧
    (roundStep t wt v).d = v.c ∧ (roundStep t wt v).e = v.d

/-- A compression: the working variables start as copies of `H[0..4]`, the eighty steps run in ascending order with
their schedule words, and the final working variables are added into `H[0..4]` (42_compression_round.md R152, R155,
R156, R160). The start as copies is the spec's general knowledge (log entry 10). -/
def Obligations.CompressionIsEightyStepsAndFeedForward : Prop :=
  ∀ (h : DigestState) (b : Block), ∃ v : Nat → WorkVars,
    v 0 = ⟨h[0], h[1], h[2], h[3], h[4]⟩ ∧
    (∀ (t : Nat) (ht : t < 80), v (t + 1) = roundStep t (schedule b)[t] (v t)) ∧
    compressBlock h b = #v[h[0] + (v 80).a, h[1] + (v 80).b, h[2] + (v 80).c, h[3] + (v 80).d, h[4] + (v 80).e]

/-- `COMPRESS` on a block `b` that stands in `BUF`: `H` becomes `compress(H, b)`, `CUR` becomes 0, and `BUF`, `LEN`,
`COMPUTED` and the ports stay (42_compression_round.md R150, R156). Nothing is said of the ephemeral registers. -/
def Obligations.CompressWritesOnlyTheDigestStateAndTheCursor : Prop :=
  ∀ (s : State) (b : Block), (∀ p (hp : p < 64), s.buf.read p = some b[p]) →
    ∃ t, s.compress = .ok t ∧
      t = { s with h := compressBlock s.h b, cur := 0#7, eph := t.eph, epoch := t.epoch }

/-- `COMPRESS` stops exactly when some position of `BUF` holds no value. That it stops there is the model's choice (log
entry 5); that no run gets there is R58. -/
def Obligations.CompressStopsOnlyOnAnUnwrittenByte : Prop :=
  ∀ s : State, (∃ f, s.compress = .error f) ↔ ∃ p, p < 64 ∧ s.buf.read p = none

/-! ### Memory and byte order -/

/-- A read of `BUF` returns the most recent write to its position and no write disturbs another position
(20_memory.md R59), and every write inside the address space keeps the canonical form (the model's, log entry 5). -/
def Obligations.BufferReadsBackTheLastWrite : Prop :=
  (∀ (m : Memory) (a : Nat) (v : Byte) (b : Nat),
    Memory.read (Memory.write m a v) b = if b = a then some v else Memory.read m b) ∧
  ∀ (m : Memory) (a : Nat) (v : Byte), m.wf = true → a < 64 → (Memory.write m a v).wf = true

/-- The length field: eight bytes, of which the `i`-th is `LEN[63-8i : 56-8i]`, so that together, first byte most
significant, they are `LEN` (20_memory.md R53(b)). -/
def Obligations.LengthFieldIsBigEndian : Prop :=
  ∀ len : LenWord, (lengthBytes len).length = 8 ∧
    (∀ i, i < 8 → (lengthBytes len)[i]? = some ((len >>> (56 - 8 * i)).setWidth 8)) ∧
    (lengthBytes len).foldl (fun acc b => acc * 256 + b.toNat) 0 = len.toNat

/-- The digest: `DG[4i + j] = H[i][31-8j : 24-8j]`, `DIGEST[159-8k : 152-8k] = DG[k]`, so `DIGEST` is the five words one
after the other with `H[0]` at the top (43_hasher_commands.md R176, 30_encoding.md R89). -/
def Obligations.DigestIsTheWordsBigEndian : Prop :=
  ∀ h : DigestState,
    (digestBytes h).length = 20 ∧
    (∀ (i : Nat) (hi : i < 5) (j : Nat), j < 4 →
      (digestBytes h)[4 * i + j]? = some ((h[i] >>> (24 - 8 * j)).setWidth 8)) ∧
    (∀ k, k < 20 → (digestBytes h)[k]? = some ((extractDigest h >>> (152 - 8 * k)).setWidth 8)) ∧
    extractDigest h = h[0] ++ h[1] ++ h[2] ++ h[3] ++ h[4]

/-! ### The commands -/

/-- `INIT`, word `0x000`, answers `OK` in every state and loads the initial state; `BUF` is not written and nothing
else changes (43_hasher_commands.md R171). Two things here are the model's choice: that the ephemeral registers (and
the model's own `epoch`) keep their values is log entry 7, where 10_state.md R35 leaves those registers unspecified;
the five values of `HINIT` are log entry 10. -/
def Obligations.InitLoadsTheInitialState : Prop :=
  encode .init = 0x000#12 ∧
  ∀ s : State, exec .init s = .next
    { s with
      h := #v[0x67452301#32, 0xEFCDAB89#32, 0x98BADCFE#32, 0x10325476#32, 0xC3D2E1F0#32]
      cur := 0#7
      len := 0#64
      computed := false
      responses := s.responses ++ [⟨.ok, none⟩] }

/-- `INIT` on a fresh engine changes nothing but the response port, `INIT` leaves a fresh engine, and a second `INIT`
in a row changes nothing (43_hasher_commands.md R171, 10_state.md R32). -/
def Obligations.InitOnAFreshEngineChangesNothing : Prop :=
  ∀ s : State,
    (s.fresh = true → exec .init s = .next { s with responses := s.responses ++ [⟨.ok, none⟩] }) ∧
    ∀ t, exec .init s = .next t → t.fresh = true ∧
      exec .init t = .next { t with responses := t.responses ++ [⟨.ok, none⟩] }

/-- `INPUT d`, word `0x100 + d` (43_hasher_commands.md R172). On a closed message: `AlreadyFinalized`, nothing written.
On an open one with `CUR ≤ 62`: the byte goes to `BUF[CUR]`, `CUR` advances by 1 and `LEN` by 8, answer `OK`. With
`CUR = 63`: the byte goes to `BUF[63]`, the full block `b` is compressed, `CUR` ends at 0, `LEN` advances by 8, answer
`OK`. Nothing else changes, but for the ephemeral registers in a compression.That an `INPUT` without a compression
keeps the ephemeral registers (and the model's own `epoch`) is the model's choice, log entry 7: 10_state.md R23 and R24
leave them unspecified. -/
def Obligations.InputStoresOneByte : Prop :=
  ∀ (d : Byte) (s : State),
    encode (.input d) = 0x100#12 + d.setWidth 12 ∧
    (s.computed = true →
      exec (.input d) s = .next { s with responses := s.responses ++ [⟨.alreadyFinalized, none⟩] }) ∧
    (s.computed = false → s.cur.toNat ≤ 62 → ∃ t, exec (.input d) s = .next t ∧
      t = { s with buf := t.buf, cur := s.cur + 1#7, len := s.len + 8#64,
                   responses := s.responses ++ [⟨.ok, none⟩] } ∧
      ∀ p, t.buf.read p = if p = s.cur.toNat then some d else s.buf.read p) ∧
    (s.computed = false → s.cur.toNat = 63 →
      ∀ b : Block, (∀ p (hp : p < 63), s.buf.read p = some b[p]) → b[63] = d →
      ∃ t, exec (.input d) s = .next t ∧
      t = { s with h := compressBlock s.h b, buf := t.buf, cur := 0#7, len := s.len + 8#64, eph := t.eph,
                   epoch := t.epoch, responses := s.responses ++ [⟨.ok, none⟩] } ∧
      ∀ p, t.buf.read p = if p = s.cur.toNat then some d else s.buf.read p)

/-- `AlreadyFinalized` is the answer of `INPUT` exactly when `COMPUTED = 1` at its start, whatever the byte; then the
state stays and so does the refusal (60_exceptions.md R202). -/
def Obligations.InputAfterFinalizationIsRefused : Prop :=
  ∀ (d : Byte) (s t : State), exec (.input d) s = .next t →
    (t.responses = s.responses ++ [⟨.alreadyFinalized, none⟩] ↔ s.computed = true) ∧
    (s.computed = true → t = { s with responses := t.responses } ∧ Status.alreadyFinalized.code = 1#3 ∧
      ∀ d' : Byte, exec (.input d') t =
        .next { t with responses := t.responses ++ [⟨.alreadyFinalized, none⟩] })

/-- `FINALIZE`, word `0x200` (43_hasher_commands.md R173, R174). On a closed message it does nothing and answers `OK`. On
an open one, with `CUR ≤ 63` and the bytes received so far in place, it answers `OK` with no digest; the last block
stands in `BUF` (`State.lastBlock`: message tail, marker, zeros, the length field), `H` is what one compression
leaves, or two when `CUR ≥ 56` (`State.closedH`), `CUR = 0`, `LEN = 0`, `COMPUTED = 1`. -/
def Obligations.FinalizeClosesTheMessage : Prop :=
  encode .finalize = 0x200#12 ∧
  ∀ s : State,
    (s.computed = true → exec .finalize s = .next { s with responses := s.responses ++ [⟨.ok, none⟩] }) ∧
    (s.computed = false → s.cur.toNat ≤ 63 → s.Written → ∃ t, exec .finalize s = .next t ∧
      t = { s with h := s.closedH, buf := t.buf, cur := 0#7, len := 0#64, computed := true, eph := t.eph,
                   epoch := t.epoch, responses := s.responses ++ [⟨.ok, none⟩] } ∧
      (∀ p (hp : p < 64), t.buf.read p = some s.lastBlock[p]) ∧
      ∀ p, 64 ≤ p → t.buf.read p = s.buf.read p)

/-- `RESULT`, word `0x300` (43_hasher_commands.md R175): as `FINALIZE` when the message is open, nothing when it is
closed; then the answer is `OK` with `DVALID = 1` and the five words of `H` as they then stand. -/
def Obligations.ResultPresentsTheDigest : Prop :=
  encode .result = 0x300#12 ∧
  ∀ s : State,
    (s.computed = true → exec .result s = .next
      { s with responses := s.responses ++ [⟨.ok, some (s.h[0] ++ s.h[1] ++ s.h[2] ++ s.h[3] ++ s.h[4])⟩] }) ∧
    (s.computed = false → s.cur.toNat ≤ 63 → s.Written → ∃ t, exec .result s = .next t ∧
      t = { s with h := s.closedH, buf := t.buf, cur := 0#7, len := 0#64, computed := true, eph := t.eph,
                   epoch := t.epoch,
                   responses := s.responses ++ [⟨.ok, some (t.h[0] ++ t.h[1] ++ t.h[2] ++ t.h[3] ++ t.h[4])⟩] } ∧
      (∀ p (hp : p < 64), t.buf.read p = some s.lastBlock[p]) ∧
      ∀ p, 64 ≤ p → t.buf.read p = s.buf.read p)

/-- `RESULT` is a fixed point: after one `RESULT`, a further `RESULT` changes no state and gives the same response, and
so does one with a refused `INPUT` or a `FINALIZE` in between (43_hasher_commands.md R175). -/
def Obligations.ResultIsAFixedPoint : Prop :=
  ∀ (s t : State) (r : Response), exec .result s = .next t → t.responses = s.responses ++ [r] →
    exec .result t = .next { t with responses := t.responses ++ [r] } ∧
    exec .finalize t = .next { t with responses := t.responses ++ [⟨.ok, none⟩] } ∧
    (∀ d : Byte, exec (.input d) t = .next { t with responses := t.responses ++ [⟨.alreadyFinalized, none⟩] }) ∧
    ∀ r' : Response, exec .result { t with responses := t.responses ++ [r'] } =
      .next { t with responses := t.responses ++ [r', r] }

/-- After `RESULT` the state is the same as after `FINALIZE`, but for the response (43_hasher_commands.md R175); and one
completes exactly when the other does. -/
def Obligations.ResultLeavesTheStateOfFinalize : Prop :=
  ∀ s : State,
    (∀ t, exec .finalize s = .next t → ∃ u, exec .result s = .next u ∧
      u = { t with responses := u.responses }) ∧
    ∀ f, exec .finalize s = .fault f ↔ exec .result s = .fault f

/-! ### What every command does and keeps -/

/-- One command gives exactly one response (30_encoding.md R80). `DVALID = 1` exactly in the `OK` response to `RESULT`
(R87); the status is `OK` or, for `INPUT` on a closed message, `AlreadyFinalized`, so `EmptyInput` and `WidthMismatch`
never occur (R88). A command leaves alone what the host has still to present. -/
def Obligations.EveryCommandGivesOneResponse : Prop :=
  ∀ (i : Instr) (s t : State), exec i s = .next t → t.port = s.port ∧
    ∃ r : Response, t.responses = s.responses ++ [r] ∧
      (r.dvalid = true ↔ i = .result) ∧
      ((r.status = .ok ∧ ¬ (s.computed = true ∧ ∃ d, i = .input d)) ∨
        (r.status = .alreadyFinalized ∧ s.computed = true ∧ ∃ d, i = .input d))

/-- An error response changes no state at all: the engine after it is the engine before it, `BUF`, `CUR`, `LEN`, `H` and
`COMPUTED` included, and it carries no digest (60_exceptions.md R209, R200). -/
def Obligations.ErrorResponsesChangeNothing : Prop :=
  ∀ (s t : State) (w : CmdWord) (rest : List HostEvent) (r : Response), s.port = .command w :: rest →
    step s = .next t → t.responses = s.responses ++ [r] → r.status ≠ .ok →
    t = { s with port := rest, responses := s.responses ++ [r] } ∧ r.dvalid = false

/-- Only `INIT` and the commands that run a compression change `H` (10_state.md R21): an `INPUT` at `CUR = 63` on an open
message, or a finalization. -/
def Obligations.DigestStateIsWrittenOnlyByInitAndCompression : Prop :=
  ∀ (i : Instr) (s t : State), exec i s = .next t → t.h ≠ s.h →
    i = .init ∨ (s.computed = false ∧ ((∃ d, i = .input d) ∧ s.cur.toNat = 63 ∨ i = .finalize ∨ i = .result))

/-- The control registers after each command in each state (43_hasher_commands.md R177, 10_state.md R28, R29, R31). -/
def Obligations.ControlRegistersFollowTheTransitionTable : Prop :=
  ∀ (i : Instr) (s t : State), exec i s = .next t →
    match i with
    | .init => t.computed = false ∧ t.cur = 0#7 ∧ t.len = 0#64
    | .input _ =>
      t.computed = s.computed ∧
        (s.computed = true → t.cur = s.cur ∧ t.len = s.len) ∧
        (s.computed = false → t.len = s.len + 8#64 ∧ t.cur.toNat = (s.cur.toNat + 1) % 64)
    | .finalize | .result =>
      t.computed = true ∧ (s.computed = true → t.cur = s.cur ∧ t.len = s.len) ∧
        (s.computed = false → t.cur = 0#7 ∧ t.len = 0#64)

/-- Every byte of `BUF` that a command does not store to is kept (20_memory.md R52): `INIT` and every command on a closed
message store nothing; an `INPUT` on an open message stores at `CUR` only; a
finalization stores at `CUR` and above when the length field fits, and below 64 in any case. -/
def Obligations.BufferBytesNotStoredToAreKept : Prop :=
  ∀ (i : Instr) (s t : State) (p : Nat), exec i s = .next t →
    (i = .init → t.buf = s.buf) ∧
    (s.computed = true → t.buf = s.buf) ∧
    (∀ d, i = .input d → s.computed = false → p ≠ s.cur.toNat → t.buf.read p = s.buf.read p) ∧
    (i = .finalize ∨ i = .result → s.computed = false → 64 ≤ p ∨ (s.cur.toNat ≤ 55 ∧ p < s.cur.toNat) →
      t.buf.read p = s.buf.read p)

/-- Where each command completes: `INIT` everywhere; `INPUT` on a closed message, or with `CUR ≤ 62`, or with `CUR = 63`
and the block's bytes in place; `FINALIZE` and `RESULT` on a closed message, or with `CUR ≤ 63` and the block's bytes in
place. Everywhere else the model stops, which no run reaches (20_memory.md R50, R58; log entries 5 and 6). -/
def Obligations.CommandsCompleteExactlyHere : Prop :=
  ∀ s : State,
    goesOn (exec .init s) ∧
    (∀ d : Byte, goesOn (exec (.input d) s) ↔
      s.computed = true ∨ s.cur.toNat ≤ 62 ∨ (s.cur.toNat = 63 ∧ s.Written)) ∧
    (goesOn (exec .finalize s) ↔ s.computed = true ∨ (s.cur.toNat ≤ 63 ∧ s.Written)) ∧
    (goesOn (exec .result s) ↔ s.computed = true ∨ (s.cur.toNat ≤ 63 ∧ s.Written))

/-! ### The step -/

/-- A step runs the decoded instruction: when the next word on the port decodes to `i`, the step is `exec i` on the state
with that word taken off the port, and nothing around it (30_encoding.md R96, 00_scope.md R19). -/
def Obligations.StepRunsTheDecodedCommand : Prop :=
  ∀ (s : State) (w : CmdWord) (rest : List HostEvent) (i : Instr), s.port = .command w :: rest →
    decode w = .ok i → step s = exec i { s with port := rest }

/-- With nothing on the port the engine holds its state and waits (70_reset_and_hazards.md R245, 60_exceptions.md R218;
log entry ; log entry 7
for the ephemeral registers). -/
def Obligations.StepWaitsWhenNothingIsPresented : Prop :=
  ∀ s : State, s.port = [] → step s = .next s

/-- Hardware reset, between commands or while one executes, leaves the initial state in `H`, `CUR`, `LEN` and `COMPUTED`
and gives no response, as `INIT` does but for the response (70_reset_and_hazards.md R230, R232). Nothing is said of `BUF`
and the ephemeral registers (log entry 11). -/
def Obligations.ResetEventsLoadTheInitialState : Prop :=
  ∀ (s : State) (rest : List HostEvent), s.port = .reset :: rest ∨ (∃ w, s.port = .abandoned w :: rest) →
    ∃ t, step s = .next t ∧
      t = { s with h := hinit, buf := t.buf, cur := 0#7, len := 0#64, computed := false, eph := t.eph, port := rest,
                   epoch := t.epoch } ∧
      ∀ u, exec .init s = .next u → u.h = t.h ∧ u.cur = t.cur ∧ u.len = t.len ∧ u.computed = t.computed

/-- After reset `H` is `HINIT`, `CUR`, `LEN` and `COMPUTED` are 0, and the named state is `Fresh` (10_state.md R35). The
five values of `HINIT` are the spec's general knowledge (log entry 10). -/
def Obligations.ResetLeavesTheTabulatedValues : Prop :=
  State.reset.h = #v[0x67452301#32, 0xEFCDAB89#32, 0x98BADCFE#32, 0x10325476#32, 0xC3D2E1F0#32] ∧
    State.reset.cur = 0#7 ∧ State.reset.len = 0#64 ∧ State.reset.computed = false ∧ State.reset.fresh = true

/-! ### Invariants -/

/-- The invariant of every command boundary holds after reset (10_state.md R34, R35). -/
def Obligations.ResetSatisfiesTheInvariant : Prop :=
  State.reset.Inv

/-- Every step keeps the invariant: `0 ≤ CUR ≤ 63`, `LEN mod 8 = 0`, a closed message has `CUR = 0` and `LEN = 0`, the bytes
received so far have values, and `BUF` is in canonical form (10_state.md R34, 20_memory.md R58). -/
def Obligations.EveryStepKeepsTheInvariant : Prop :=
  ∀ s t : State, s.Inv → step s = .next t → t.Inv

/-- Only `INIT` (the word `0x000`) and a hardware reset open a closed message again: `COMPUTED` never goes from 1 to 0
otherwise (10_state.md R34(iv), R31). -/
def Obligations.OnlyInitAndResetReopenAMessage : Prop :=
  ∀ s t : State, step s = .next t → s.computed = true → t.computed = false →
    ∃ rest, s.port = .command 0x000#12 :: rest ∨ s.port = .reset :: rest ∨ ∃ w, s.port = .abandoned w :: rest

/-- The engine never stops: from every state that meets the invariant, any number of steps, whatever the host presents,
ends in a next state that meets it (70_reset_and_hazards.md R245: no deadlock, no stuck state, no hang). -/
def Obligations.TheEngineNeverStops : Prop :=
  ∀ (n : Nat) (s : State), s.Inv → ∃ t, s.run n = .next t ∧ t.Inv

/-- What no command can observe stays unobserved: two states that differ only in stale bytes of `BUF` and in the ephemeral
registers answer alike, for any number of steps (10_state.md R33, 20_memory.md R58). -/
def Obligations.HiddenStateNeverReachesAResponse : Prop :=
  ∀ (n : Nat) (s t s' : State), s.Inv → t.Inv → s.SameVisible t → s.run n = .next s' →
    ∃ t', t.run n = .next t' ∧ s'.SameVisible t'

/-! ### Whole messages -/

/-- After `INIT` and `n` commands `INPUT`, `CUR = n mod 64` and `LEN = 8n` modulo `2^64`, whatever state the engine was in
(10_state.md R29, 43_hasher_commands.md R182). -/
def Obligations.CountersCountTheInputs : Prop :=
  ∀ (s : State) (m : List Byte), ∃ t,
    (s.present (encode .init :: inputsWords m)).run (m.length + 1) = .next t ∧
      t.cur.toNat = m.length % 64 ∧ t.len.toNat = (8 * m.length) % 2 ^ 64 ∧ t.computed = false ∧ t.port = s.port

/-- The padded message is a whole number of blocks, `floor((n + 8) / 64) + 1` of them, and the number of zero bytes is the
least that makes it so (43_hasher_commands.md R180, R181). -/
def Obligations.PaddedMessageIsWholeBlocks : Prop :=
  ∀ m : List Byte,
    (pieces (paddedMessage m)).length = (m.length + 8) / 64 + 1 ∧
    (paddedMessage m).length = 64 * ((m.length + 8) / 64 + 1) ∧
    ∀ z, (m.length + 1 + z + 8) % 64 = 0 → paddingZeros m.length ≤ z

/-- `HASH m` for every message shorter than `2^61` bytes, from any state of the engine: every command is answered `OK`, and
the last response carries the digest of the padded message, `compress` folded over its blocks from `HINIT`
(43_hasher_commands.md R181, 30_encoding.md R93). -/
def Obligations.HashingAMessageGivesItsDigest : Prop :=
  ∀ (s : State) (m : List Byte), m.length < 2 ^ 61 → ∃ t,
    (s.present (hashWords m)).run (m.length + 2) = .next t ∧
      t.h = messageState m ∧ t.computed = true ∧ t.cur = 0#7 ∧ t.len = 0#64 ∧ t.port = s.port ∧
      t.responses = s.responses ++ List.replicate (m.length + 1) ⟨.ok, none⟩ ++ [⟨.ok, some (messageDigest m)⟩]

/-- Chunking invariance (43_hasher_commands.md R178, 30_encoding.md R92). From any state, whatever stands on the port,
feeding chunks by separate `INPUTS`, each to the state the one before it left, ends as one `INPUTS` of the whole
sequence does: the same next state, or the same stop. So after `INIT` every way of cutting a message shorter than `2^61`
bytes is answered `OK` byte by byte, and `RESULT` then answers the digest of the uncut message (which rests on
`HINIT`, log entry 10). -/
def Obligations.ChunkingDoesNotMatter : Prop :=
  ∀ (s : State) (chunks : List (List Byte)),
    s.inputsEach chunks = s.inputs chunks.flatten ∧
    (chunks.flatten.length < 2 ^ 61 → ∃ t u v, exec .init s = .next t ∧ t.inputsEach chunks = .next u ∧
      exec .result u = .next v ∧
      v.responses = s.responses ++ List.replicate (chunks.flatten.length + 1) ⟨.ok, none⟩ ++
        [⟨.ok, some (messageDigest chunks.flatten)⟩])

/-- Illegal words among the commands leave every later state what it would have been without them, responses apart
(60_exceptions.md R210). -/
def Obligations.IllegalWordsLeaveAMessageAlone : Prop :=
  ∀ (s t : State) (ws : List CmdWord), (s.present ws).run ws.length = .next t →
    ∃ u, (s.present (ws.filter fun w => (decodeTableWord 12 w.toNat).isSome)).run
        (ws.filter fun w => (decodeTableWord 12 w.toNat).isSome).length = .next u ∧
      t = { u with responses := t.responses }
end

