-- ==== Sys2Proof/Laws/Memory.lean ====
section
/-! SUPPORT. The laws of the block buffer: a read after a write, and the canonical form (20_memory.md R50, R59). -/

namespace Sys2Proof.Machine

/-- A read returns the value of the most recent write to its position, and no other position is affected. -/
theorem Memory.read_write (m : Memory) (a : Nat) (v : Byte) (b : Nat) :
    Memory.read (Memory.write m a v) b = if a = b then some v else Memory.read m b := by
  induction m with
  | nil => simp [Memory.write, Memory.read]
  | cons c m ih =>
    obtain ⟨p, u⟩ := c
    simp only [Memory.write]
    split
    · simp [Memory.read]
    · split
      · rename_i h1 h2
        subst h2
        simp only [Memory.read]
        split <;> rfl
      · simp only [Memory.read, ih]
        split
        · have : ¬ a = b := by omega
          simp [this]
        · rfl

/-- A write at or above the lower bound keeps the list rising from that bound. -/
theorem Memory.wfFrom_write (m : Memory) (lo a : Nat) (v : Byte) (hm : Memory.wfFrom lo m = true)
    (hlo : lo ≤ a) (ha : a < bufSize) : Memory.wfFrom lo (Memory.write m a v) = true := by
  induction m generalizing lo with
  | nil => simp [Memory.write, Memory.wfFrom, hlo, ha]
  | cons c m ih =>
    obtain ⟨p, u⟩ := c
    simp only [Memory.wfFrom, Bool.and_eq_true, decide_eq_true_eq] at hm
    obtain ⟨⟨h1, h2⟩, h3⟩ := hm
    simp only [Memory.write]
    split
    · rename_i h
      simp only [Memory.wfFrom, Bool.and_eq_true, decide_eq_true_eq]
      exact ⟨⟨hlo, ha⟩, ⟨⟨by omega, h2⟩, h3⟩⟩
    · split
      · rename_i h
        subst h
        simp only [Memory.wfFrom, Bool.and_eq_true, decide_eq_true_eq]
        exact ⟨⟨h1, h2⟩, h3⟩
      · simp only [Memory.wfFrom, Bool.and_eq_true, decide_eq_true_eq]
        exact ⟨⟨h1, h2⟩, ih (p + 1) h3 (by omega)⟩

/-- A write inside the address space keeps the canonical form. -/
theorem Memory.wf_write {m : Memory} {a : Nat} (v : Byte) (hm : m.wf = true) (ha : a < bufSize) :
    (Memory.write m a v).wf = true :=
  Memory.wfFrom_write m 0 a v hm (Nat.zero_le a) ha

/-- The empty buffer, as after reset, is in canonical form. -/
theorem Memory.wf_nil : Memory.wf [] = true := rfl

/-- A canonical list that rises from `lo` lists no position below `lo`. -/
theorem Memory.read_below (m : Memory) (lo a : Nat) (hm : Memory.wfFrom lo m = true) (ha : a < lo) :
    Memory.read m a = none := by
  induction m generalizing lo with
  | nil => rfl
  | cons c m ih =>
    obtain ⟨p, u⟩ := c
    simp only [Memory.wfFrom, Bool.and_eq_true, decide_eq_true_eq] at hm
    have hne : ¬ p = a := by omega
    simp [Memory.read, hne, ih (p + 1) hm.2 (by omega)]

/-- Canonical buffers that read alike everywhere are equal lists. -/
theorem Memory.ext_of_wfFrom (m n : Memory) (lo : Nat) (hm : Memory.wfFrom lo m = true)
    (hn : Memory.wfFrom lo n = true) (h : ∀ a, Memory.read m a = Memory.read n a) : m = n := by
  induction m generalizing n lo with
  | nil =>
    cases n with
    | nil => rfl
    | cons c n => have := h c.1; simp [Memory.read] at this
  | cons c m ih =>
    obtain ⟨p, u⟩ := c
    cases n with
    | nil => have := h p; simp [Memory.read] at this
    | cons c' n =>
      obtain ⟨q, v⟩ := c'
      simp only [Memory.wfFrom, Bool.and_eq_true, decide_eq_true_eq] at hm hn
      have hpq : p = q := by
        rcases Nat.lt_trichotomy p q with hlt | heq | hlt
        · have hp := h p
          have hq : Memory.read n p = none := Memory.read_below n (q + 1) p hn.2 (by omega)
          have hne : ¬ q = p := by omega
          simp [Memory.read, hne, hq] at hp
        · exact heq
        · have hq := h q
          have hp : Memory.read m q = none := Memory.read_below m (p + 1) q hm.2 (by omega)
          have hne : ¬ p = q := by omega
          simp [Memory.read, hne, hp] at hq
      subst hpq
      have huv : u = v := by simpa [Memory.read] using h p
      subst huv
      congr 1
      refine ih n (p + 1) hm.2 hn.2 fun a => ?_
      by_cases ha : p = a
      · subst ha
        rw [Memory.read_below m (p + 1) p hm.2 (by omega), Memory.read_below n (p + 1) p hn.2 (by omega)]
      · simpa [Memory.read, ha] using h a

end Sys2Proof.Machine
end

