-- ==== Sys2Proof/Laws/State.lean ====
section
/-! SUPPORT. One lemma per field per update of the state, so that no later proof unfolds a record update. -/

namespace Sys2Proof.Machine

/-! ### `State.setH` -/

@[simp] theorem State.setH_h (s : State) (v : DigestState) : (s.setH v).h = v := rfl
@[simp] theorem State.setH_buf (s : State) (v : DigestState) : (s.setH v).buf = s.buf := rfl
@[simp] theorem State.setH_cur (s : State) (v : DigestState) : (s.setH v).cur = s.cur := rfl
@[simp] theorem State.setH_len (s : State) (v : DigestState) : (s.setH v).len = s.len := rfl
@[simp] theorem State.setH_computed (s : State) (v : DigestState) : (s.setH v).computed = s.computed := rfl
@[simp] theorem State.setH_eph (s : State) (v : DigestState) : (s.setH v).eph = s.eph := rfl
@[simp] theorem State.setH_port (s : State) (v : DigestState) : (s.setH v).port = s.port := rfl
@[simp] theorem State.setH_responses (s : State) (v : DigestState) : (s.setH v).responses = s.responses := rfl
@[simp] theorem State.setH_epoch (s : State) (v : DigestState) : (s.setH v).epoch = s.epoch := rfl

/-! ### `State.setBuf` -/

@[simp] theorem State.setBuf_h (s : State) (m : Memory) : (s.setBuf m).h = s.h := rfl
@[simp] theorem State.setBuf_buf (s : State) (m : Memory) : (s.setBuf m).buf = m := rfl
@[simp] theorem State.setBuf_cur (s : State) (m : Memory) : (s.setBuf m).cur = s.cur := rfl
@[simp] theorem State.setBuf_len (s : State) (m : Memory) : (s.setBuf m).len = s.len := rfl
@[simp] theorem State.setBuf_computed (s : State) (m : Memory) : (s.setBuf m).computed = s.computed := rfl
@[simp] theorem State.setBuf_eph (s : State) (m : Memory) : (s.setBuf m).eph = s.eph := rfl
@[simp] theorem State.setBuf_port (s : State) (m : Memory) : (s.setBuf m).port = s.port := rfl
@[simp] theorem State.setBuf_responses (s : State) (m : Memory) : (s.setBuf m).responses = s.responses := rfl
@[simp] theorem State.setBuf_epoch (s : State) (m : Memory) : (s.setBuf m).epoch = s.epoch := rfl

/-! ### `State.setCur` -/

@[simp] theorem State.setCur_h (s : State) (v : Cursor) : (s.setCur v).h = s.h := rfl
@[simp] theorem State.setCur_buf (s : State) (v : Cursor) : (s.setCur v).buf = s.buf := rfl
@[simp] theorem State.setCur_cur (s : State) (v : Cursor) : (s.setCur v).cur = v := rfl
@[simp] theorem State.setCur_len (s : State) (v : Cursor) : (s.setCur v).len = s.len := rfl
@[simp] theorem State.setCur_computed (s : State) (v : Cursor) : (s.setCur v).computed = s.computed := rfl
@[simp] theorem State.setCur_eph (s : State) (v : Cursor) : (s.setCur v).eph = s.eph := rfl
@[simp] theorem State.setCur_port (s : State) (v : Cursor) : (s.setCur v).port = s.port := rfl
@[simp] theorem State.setCur_responses (s : State) (v : Cursor) : (s.setCur v).responses = s.responses := rfl
@[simp] theorem State.setCur_epoch (s : State) (v : Cursor) : (s.setCur v).epoch = s.epoch := rfl

/-! ### `State.setLen` -/

@[simp] theorem State.setLen_h (s : State) (v : LenWord) : (s.setLen v).h = s.h := rfl
@[simp] theorem State.setLen_buf (s : State) (v : LenWord) : (s.setLen v).buf = s.buf := rfl
@[simp] theorem State.setLen_cur (s : State) (v : LenWord) : (s.setLen v).cur = s.cur := rfl
@[simp] theorem State.setLen_len (s : State) (v : LenWord) : (s.setLen v).len = v := rfl
@[simp] theorem State.setLen_computed (s : State) (v : LenWord) : (s.setLen v).computed = s.computed := rfl
@[simp] theorem State.setLen_eph (s : State) (v : LenWord) : (s.setLen v).eph = s.eph := rfl
@[simp] theorem State.setLen_port (s : State) (v : LenWord) : (s.setLen v).port = s.port := rfl
@[simp] theorem State.setLen_responses (s : State) (v : LenWord) : (s.setLen v).responses = s.responses := rfl
@[simp] theorem State.setLen_epoch (s : State) (v : LenWord) : (s.setLen v).epoch = s.epoch := rfl

/-! ### `State.setComputed` -/

@[simp] theorem State.setComputed_h (s : State) (v : Bool) : (s.setComputed v).h = s.h := rfl
@[simp] theorem State.setComputed_buf (s : State) (v : Bool) : (s.setComputed v).buf = s.buf := rfl
@[simp] theorem State.setComputed_cur (s : State) (v : Bool) : (s.setComputed v).cur = s.cur := rfl
@[simp] theorem State.setComputed_len (s : State) (v : Bool) : (s.setComputed v).len = s.len := rfl
@[simp] theorem State.setComputed_computed (s : State) (v : Bool) : (s.setComputed v).computed = v := rfl
@[simp] theorem State.setComputed_eph (s : State) (v : Bool) : (s.setComputed v).eph = s.eph := rfl
@[simp] theorem State.setComputed_port (s : State) (v : Bool) : (s.setComputed v).port = s.port := rfl
@[simp] theorem State.setComputed_responses (s : State) (v : Bool) : (s.setComputed v).responses = s.responses := rfl
@[simp] theorem State.setComputed_epoch (s : State) (v : Bool) : (s.setComputed v).epoch = s.epoch := rfl

/-! ### `State.setPort` -/

@[simp] theorem State.setPort_h (s : State) (r : List HostEvent) : (s.setPort r).h = s.h := rfl
@[simp] theorem State.setPort_buf (s : State) (r : List HostEvent) : (s.setPort r).buf = s.buf := rfl
@[simp] theorem State.setPort_cur (s : State) (r : List HostEvent) : (s.setPort r).cur = s.cur := rfl
@[simp] theorem State.setPort_len (s : State) (r : List HostEvent) : (s.setPort r).len = s.len := rfl
@[simp] theorem State.setPort_computed (s : State) (r : List HostEvent) : (s.setPort r).computed = s.computed := rfl
@[simp] theorem State.setPort_eph (s : State) (r : List HostEvent) : (s.setPort r).eph = s.eph := rfl
@[simp] theorem State.setPort_port (s : State) (r : List HostEvent) : (s.setPort r).port = r := rfl
@[simp] theorem State.setPort_responses (s : State) (r : List HostEvent) : (s.setPort r).responses = s.responses := rfl
@[simp] theorem State.setPort_epoch (s : State) (r : List HostEvent) : (s.setPort r).epoch = s.epoch := rfl

/-! ### `State.respond` -/

@[simp] theorem State.respond_h (s : State) (r : Response) : (s.respond r).h = s.h := rfl
@[simp] theorem State.respond_buf (s : State) (r : Response) : (s.respond r).buf = s.buf := rfl
@[simp] theorem State.respond_cur (s : State) (r : Response) : (s.respond r).cur = s.cur := rfl
@[simp] theorem State.respond_len (s : State) (r : Response) : (s.respond r).len = s.len := rfl
@[simp] theorem State.respond_computed (s : State) (r : Response) : (s.respond r).computed = s.computed := rfl
@[simp] theorem State.respond_eph (s : State) (r : Response) : (s.respond r).eph = s.eph := rfl
@[simp] theorem State.respond_port (s : State) (r : Response) : (s.respond r).port = s.port := rfl
@[simp] theorem State.respond_responses (s : State) (r : Response) : (s.respond r).responses = s.responses ++ [r] := rfl
@[simp] theorem State.respond_epoch (s : State) (r : Response) : (s.respond r).epoch = s.epoch := rfl

/-! ### `State.scrambleEph` -/

@[simp] theorem State.scrambleEph_h (s : State) : (s.scrambleEph).h = s.h := rfl
@[simp] theorem State.scrambleEph_buf (s : State) : (s.scrambleEph).buf = s.buf := rfl
@[simp] theorem State.scrambleEph_cur (s : State) : (s.scrambleEph).cur = s.cur := rfl
@[simp] theorem State.scrambleEph_len (s : State) : (s.scrambleEph).len = s.len := rfl
@[simp] theorem State.scrambleEph_computed (s : State) : (s.scrambleEph).computed = s.computed := rfl
@[simp] theorem State.scrambleEph_eph (s : State) : (s.scrambleEph).eph = Config.residue s.epoch := rfl
@[simp] theorem State.scrambleEph_port (s : State) : (s.scrambleEph).port = s.port := rfl
@[simp] theorem State.scrambleEph_responses (s : State) : (s.scrambleEph).responses = s.responses := rfl
@[simp] theorem State.scrambleEph_epoch (s : State) : (s.scrambleEph).epoch = s.epoch + 1 := rfl

/-! ### `State.loadInitial` -/

@[simp] theorem State.loadInitial_h (s : State) : s.loadInitial.h = hinit := rfl
@[simp] theorem State.loadInitial_buf (s : State) : s.loadInitial.buf = s.buf := rfl
@[simp] theorem State.loadInitial_cur (s : State) : s.loadInitial.cur = 0#7 := rfl
@[simp] theorem State.loadInitial_len (s : State) : s.loadInitial.len = 0#64 := rfl
@[simp] theorem State.loadInitial_computed (s : State) : s.loadInitial.computed = false := rfl
@[simp] theorem State.loadInitial_eph (s : State) : s.loadInitial.eph = s.eph := rfl
@[simp] theorem State.loadInitial_port (s : State) : s.loadInitial.port = s.port := rfl
@[simp] theorem State.loadInitial_responses (s : State) : s.loadInitial.responses = s.responses := rfl
@[simp] theorem State.loadInitial_epoch (s : State) : s.loadInitial.epoch = s.epoch := rfl

/-! ### `State.hardwareReset` -/

@[simp] theorem State.hardwareReset_h (s : State) : s.hardwareReset.h = hinit := rfl
@[simp] theorem State.hardwareReset_buf (s : State) : s.hardwareReset.buf = [] := rfl
@[simp] theorem State.hardwareReset_cur (s : State) : s.hardwareReset.cur = 0#7 := rfl
@[simp] theorem State.hardwareReset_len (s : State) : s.hardwareReset.len = 0#64 := rfl
@[simp] theorem State.hardwareReset_computed (s : State) : s.hardwareReset.computed = false := rfl
@[simp] theorem State.hardwareReset_eph (s : State) : s.hardwareReset.eph = Config.residue s.epoch := rfl
@[simp] theorem State.hardwareReset_port (s : State) : s.hardwareReset.port = s.port := rfl
@[simp] theorem State.hardwareReset_responses (s : State) : s.hardwareReset.responses = s.responses := rfl
@[simp] theorem State.hardwareReset_epoch (s : State) : s.hardwareReset.epoch = s.epoch + 1 := rfl

/-! ### The spellings of a response, and of the flag -/

@[simp] theorem State.respondOk_eq (s : State) : s.respondOk = s.respond ⟨.ok, none⟩ := rfl
@[simp] theorem State.respondDigest_eq (s : State) (v : Digest) : s.respondDigest v = s.respond ⟨.ok, some v⟩ := rfl
@[simp] theorem State.raise_eq (s : State) (e : Status) : s.raise e = s.respond ⟨e, none⟩ := rfl
@[simp] theorem State.finalized_eq (s : State) : s.finalized = s.computed := rfl

/-- Two states are equal when all their fields are. -/
theorem State.eq_of_fields {s t : State} (h : s.h = t.h) (buf : s.buf = t.buf) (cur : s.cur = t.cur)
    (len : s.len = t.len) (computed : s.computed = t.computed) (eph : s.eph = t.eph) (port : s.port = t.port)
    (responses : s.responses = t.responses) (epoch : s.epoch = t.epoch) : s = t := by
  cases s; cases t; simp_all

end Sys2Proof.Machine
end

