-- ==== Sys2Proof/Laws/Ops.lean ====
section
/-! SUPPORT. One specification lemma per shared operation: what it answers, and when it stops. -/

namespace Sys2Proof.Machine

/-! ### Writing the block buffer -/

/-- A write inside the address space changes `BUF` only. -/
theorem State.writeByte_ok (s : State) {p : Nat} (v : Byte) (hp : p < bufSize) :
    s.writeByte p v = .ok (s.setBuf (s.buf.write p v)) := by
  simp [State.writeByte, hp]

/-- A write outside the address space stops. -/
theorem State.writeByte_error (s : State) {p : Nat} (v : Byte) (hp : ¬ p < bufSize) :
    s.writeByte p v = .error (.noSuchPosition p) := by
  simp [State.writeByte, hp]

/-- `t` is `s` after `n` bytes `f cur, f (cur+1), …` were put at the cursor: `BUF` and `CUR` changed, nothing else. -/
structure State.Put (s t : State) (n : Nat) (f : Nat → Byte) : Prop where
  frame : t = { s with buf := t.buf, cur := t.cur }
  cur : t.cur.toNat = s.cur.toNat + n
  read : ∀ p, t.buf.read p =
    if s.cur.toNat ≤ p ∧ p < s.cur.toNat + n then some (f p) else s.buf.read p
  wf : s.buf.wf = true → t.buf.wf = true

/-- Putting no byte changes nothing. -/
theorem State.Put.refl (s : State) (f : Nat → Byte) : State.Put s s 0 f where
  frame := rfl
  cur := rfl
  read p := by
    rw [if_neg (by omega)]
  wf h := h

/-- Two runs of bytes one after the other are one run. -/
theorem State.Put.trans {s t u : State} {n m : Nat} {f g : Nat → Byte} (h1 : State.Put s t n f)
    (h2 : State.Put t u m g) : State.Put s u (n + m) (fun p => if p < s.cur.toNat + n then f p else g p) where
  frame := by
    have a := h1.frame
    have b := h2.frame
    rw [b, a]
  cur := by rw [h2.cur, h1.cur]; omega
  read p := by
    rw [h2.read, h1.read, h1.cur]
    by_cases hp : p < s.cur.toNat + n
    · rw [if_neg (by omega)]
      by_cases hc : s.cur.toNat ≤ p
      · rw [if_pos ⟨hc, hp⟩, if_pos ⟨hc, by omega⟩, if_pos hp]
      · rw [if_neg (by omega), if_neg (by omega)]
    · by_cases hm : p < s.cur.toNat + n + m
      · rw [if_pos ⟨by omega, hm⟩, if_pos ⟨by omega, by omega⟩, if_neg hp]
      · rw [if_neg (by omega), if_neg (by omega), if_neg (by omega)]
  wf h := h2.wf (h1.wf h)

/-- The bytes a run puts matter only at the positions it puts them. -/
theorem State.Put.congr {s t : State} {n : Nat} {f g : Nat → Byte} (h : State.Put s t n f)
    (hfg : ∀ p, s.cur.toNat ≤ p → p < s.cur.toNat + n → f p = g p) : State.Put s t n g where
  frame := h.frame
  cur := h.cur
  read p := by
    rw [h.read]
    split
    · rename_i hp
      rw [hfg p hp.1 hp.2]
    · rfl
  wf := h.wf

/-- Below position 64 a byte is put at the cursor, and the cursor advances. -/
theorem State.putByte_ok (s : State) (v : Byte) (h : s.cur.toNat < 64) :
    s.putByte v = .ok ((s.setBuf (s.buf.write s.cur.toNat v)).setCur (s.cur + 1#7)) := by
  simp [State.putByte, State.writeByte_ok s v (show s.cur.toNat < bufSize from h), bind, Except.bind, pure,
    Except.pure]

/-- At position 64 and above there is nowhere to put a byte. -/
theorem State.putByte_error (s : State) (v : Byte) (h : ¬ s.cur.toNat < 64) :
    s.putByte v = .error (.noSuchPosition s.cur.toNat) := by
  simp [State.putByte, State.writeByte_error s v (show ¬ s.cur.toNat < bufSize from h), bind, Except.bind]

/-- One byte put at the cursor is a run of length one. -/
theorem State.putByte_put (s : State) (v : Byte) (h : s.cur.toNat < 64) :
    ∃ t, s.putByte v = .ok t ∧ State.Put s t 1 (fun _ => v) := by
  refine ⟨_, State.putByte_ok s v h, rfl, ?_, ?_, fun hw => Memory.wf_write v hw h⟩
  · simp [BitVec.toNat_add]
    omega
  · intro p
    simp only [State.setCur_buf, State.setBuf_buf, Memory.read_write]
    split <;> split <;> first | rfl | omega

/-- `n` zero bytes fit below position 64: they are a run of length `n`. -/
theorem State.putZeros_put (n : Nat) (s : State) (h : s.cur.toNat + n ≤ 64) :
    ∃ t, s.putZeros n = .ok t ∧ State.Put s t n (fun _ => 0x00#8) := by
  induction n generalizing s with
  | zero => exact ⟨s, rfl, State.Put.refl s _⟩
  | succ n ih =>
    obtain ⟨t, ht, hst⟩ := State.putByte_put s 0x00#8 (by omega)
    obtain ⟨u, hu, htu⟩ := ih t (by rw [hst.cur]; omega)
    refine ⟨u, ?_, ?_⟩
    · simp [State.putZeros, ht, hu, bind, Except.bind]
    · have := hst.trans htu
      rw [Nat.add_comm 1 n] at this
      exact this.congr fun p _ _ => by simp

/-- The loop that fills with zeros up to a limit (R174) puts exactly the missing bytes. -/
theorem State.fillTo_put (s : State) (limit : Nat) (hc : s.cur.toNat ≤ limit) (hl : limit ≤ 64) :
    ∃ t, s.fillTo limit = .ok t ∧ State.Put s t (limit - s.cur.toNat) (fun _ => 0x00#8) :=
  State.putZeros_put (limit - s.cur.toNat) s (by omega)

/-- Bytes written from a position on: `BUF` changes there and nothing else does. -/
theorem State.writeBytes_ok (vs : List Byte) (s : State) (p : Nat) (h : p + vs.length ≤ 64) :
    ∃ m, s.writeBytes p vs = .ok (s.setBuf m) ∧
      (∀ a, Memory.read m a = if p ≤ a ∧ a < p + vs.length then vs[a - p]? else s.buf.read a) ∧
      (s.buf.wf = true → m.wf = true) := by
  induction vs generalizing s p with
  | nil =>
    refine ⟨s.buf, rfl, fun a => ?_, id⟩
    rw [if_neg (by simp)]
  | cons v vs ih =>
    have hlen : (v :: vs).length = vs.length + 1 := rfl
    have hp : p < bufSize := by simp only [bufSize]; omega
    obtain ⟨m, hm, hr, hw⟩ := ih (s.setBuf (s.buf.write p v)) (p + 1) (by omega)
    refine ⟨m, ?_, fun a => ?_, fun h => hw (Memory.wf_write v h hp)⟩
    · simp only [State.writeBytes, State.writeByte_ok s v hp, bind, Except.bind, hm]
      rfl
    · rw [hr a]
      simp only [State.setBuf_buf, Memory.read_write, hlen]
      by_cases h1 : p = a
      · subst h1
        rw [if_neg (by omega), if_pos rfl, if_pos (by omega), Nat.sub_self]
        rfl
      · by_cases h2 : p + 1 ≤ a ∧ a < p + 1 + vs.length
        · have h3 : p ≤ a ∧ a < p + (vs.length + 1) := by omega
          have h4 : a - p = (a - (p + 1)) + 1 := by omega
          rw [if_pos h2, if_pos h3, h4, List.getElem?_cons_succ]
        · have h3 : ¬ (p ≤ a ∧ a < p + (vs.length + 1)) := by omega
          rw [if_neg h2, if_neg h3, if_neg h1]

/-! ### Reading the block -/

/-- The block is read exactly when every position of `BUF` holds a value. -/
theorem State.readBlock_ok (s : State) (h : ∀ p, p < 64 → (s.buf.read p).isSome = true) :
    s.readBlock = .ok s.blockBytes := by
  have hf : s.firstUnwritten = none := by
    simp only [State.firstUnwritten, List.find?_eq_none, List.mem_range, bufSize]
    intro p hp
    have := h p hp
    cases hr : s.buf.read p <;> simp_all
  simp [State.readBlock, hf]

/-- Where some position holds no value, reading the block stops. -/
theorem State.readBlock_error (s : State) {p : Nat} (hp : p < 64) (h : s.buf.read p = none) :
    ∃ q, s.readBlock = .error (.unwrittenByte q) := by
  cases hf : s.firstUnwritten with
  | none =>
    simp only [State.firstUnwritten, List.find?_eq_none, List.mem_range, bufSize] at hf
    exact absurd (by simp [h]) (hf p hp)
  | some q => exact ⟨q, by simp [State.readBlock, hf]⟩

/-- The block read is the block whose bytes stand in `BUF`. -/
theorem State.blockBytes_eq (s : State) (b : Block) (h : ∀ p (hp : p < 64), s.buf.read p = some b[p]) :
    s.blockBytes = b := by
  ext i hi
  simp [State.blockBytes, h i hi]

/-! ### COMPRESS -/

/-- `COMPRESS` on a full buffer (R156). -/
theorem State.compress_ok (s : State) (h : ∀ p, p < 64 → (s.buf.read p).isSome = true) :
    s.compress = .ok ((s.setH (compressBlock s.h s.blockBytes)).setCur 0#7).scrambleEph := by
  simp [State.compress, State.readBlock_ok s h, bind, Except.bind, pure, Except.pure]

/-- `COMPRESS` on a buffer whose contents are known. -/
theorem State.compress_block (s : State) (b : Block) (h : ∀ p (hp : p < 64), s.buf.read p = some b[p]) :
    s.compress = .ok ((s.setH (compressBlock s.h b)).setCur 0#7).scrambleEph := by
  rw [State.compress_ok s fun p hp => by simp [h p hp], State.blockBytes_eq s b h]

/-- `COMPRESS` stops where a position holds no value. -/
theorem State.compress_error (s : State) {p : Nat} (hp : p < 64) (h : s.buf.read p = none) :
    ∃ q, s.compress = .error (.unwrittenByte q) := by
  obtain ⟨q, hq⟩ := State.readBlock_error s hp h
  exact ⟨q, by simp [State.compress, hq, bind, Except.bind]⟩

/-- What `COMPRESS` answers, it answers from a full buffer. -/
theorem State.compress_inv {s t : State} (h : s.compress = .ok t) :
    (∀ p, p < 64 → (s.buf.read p).isSome = true) ∧
      t = ((s.setH (compressBlock s.h s.blockBytes)).setCur 0#7).scrambleEph := by
  have hall : ∀ p, p < 64 → (s.buf.read p).isSome = true := by
    intro p hp
    cases hr : s.buf.read p with
    | some v => rfl
    | none =>
      obtain ⟨q, hq⟩ := State.compress_error s hp hr
      rw [hq] at h
      cases h
  rw [State.compress_ok s hall] at h
  exact ⟨hall, by cases h; rfl⟩

end Sys2Proof.Machine
end

