-- ==== Sys2Proof/Laws/Padding.lean ====
section
/-! SUPPORT. What `PAD` and `DO_FINALIZE` answer, and when they stop (43_hasher_commands.md R173, R174). -/

namespace Sys2Proof.Machine

/-- `EXTRACT` as a shift and a truncation (R119). -/
theorem extract_eq {w : Nat} (x : BitVec w) (hi lo : Nat) (h : lo ≤ hi ∧ hi < w) :
    extract x hi lo h = (x >>> lo).setWidth (hi - lo + 1) := by
  apply BitVec.eq_of_toNat_eq
  simp [extract]

/-- The bytes of the length field by position: `LEN`, most significant byte at 56 (R53(b), R57). -/
theorem lengthBytes_getElem? (len : LenWord) {p : Nat} (h1 : 56 ≤ p) (h2 : p < 64) :
    (lengthBytes len)[p - 56]? = some ((len >>> (8 * (63 - p))).setWidth 8) := by
  obtain ⟨k, rfl⟩ := Nat.exists_eq_add_of_le h1
  have hk : k = 0 ∨ k = 1 ∨ k = 2 ∨ k = 3 ∨ k = 4 ∨ k = 5 ∨ k = 6 ∨ k = 7 := by omega
  rcases hk with rfl | rfl | rfl | rfl | rfl | rfl | rfl | rfl <;> rfl

/-- The last block read by position. -/
theorem State.lastBlock_getElem (s : State) (p : Nat) (hp : p < 64) :
    s.lastBlock[p] = if p < 56 then (if s.cur.toNat ≤ 55 then s.tailByte p else 0x00#8)
      else (s.len >>> (8 * (63 - p))).setWidth 8 := by
  simp [State.lastBlock]

/-- The marker and zeros put after the bytes received so far leave the tail of the message. -/
theorem State.Put.tail {s t : State} {n : Nat} (hw : s.Written)
    (h : State.Put s t n (fun p => if p < s.cur.toNat + 1 then markerByte else 0x00#8)) {p : Nat}
    (hp : p < s.cur.toNat + n) : t.buf.read p = some (s.tailByte p) := by
  rw [h.read, State.tailByte]
  by_cases hc : s.cur.toNat ≤ p
  · rw [if_pos ⟨hc, hp⟩, if_neg (Nat.not_lt.mpr hc)]
    by_cases he : p = s.cur.toNat
    · have h1 : p < s.cur.toNat + 1 := by omega
      rw [if_pos he]
      simp [h1, markerByte]
    · have h1 : ¬ p < s.cur.toNat + 1 := by omega
      rw [if_neg he]
      simp [h1]
  · rw [if_neg (by omega), if_pos (by omega)]
    have := hw p (by omega)
    cases hr : s.buf.read p <;> simp_all

/-- The marker byte and zeros up to a limit, as one run of bytes (R174). -/
theorem State.mark_and_fill (s : State) (limit : Nat) (h : s.cur.toNat < limit) (hl : limit ≤ 64) :
    ∃ u t, s.putByte markerByte = .ok u ∧ u.fillTo limit = .ok t ∧
      State.Put s t (limit - s.cur.toNat) (fun p => if p < s.cur.toNat + 1 then markerByte else 0x00#8) := by
  obtain ⟨u, hu, hsu⟩ := State.putByte_put s markerByte (by omega)
  obtain ⟨t, ht, hut⟩ := State.fillTo_put u limit (by rw [hsu.cur]; omega) hl
  refine ⟨u, t, hu, ht, ?_⟩
  have := hsu.trans hut
  rw [hsu.cur] at this
  rwa [show 1 + (limit - (s.cur.toNat + 1)) = limit - s.cur.toNat by omega] at this

/-- What the first half of `PAD` leaves: 56 positions written, the digest state `h`, and nothing else touched but
the ephemeral registers. -/
structure State.ReadyForLength (s u : State) (h : DigestState) (f : Nat → Byte) : Prop where
  frame : u = { s with h := h, buf := u.buf, cur := 56#7, eph := u.eph, epoch := u.epoch }
  low : ∀ p, p < 56 → u.buf.read p = some (f p)
  high : ∀ p, 64 ≤ p → u.buf.read p = s.buf.read p
  wf : s.buf.wf = true → u.buf.wf = true

/-- A cursor is determined by the position it holds. -/
theorem cursor_eq {c : Cursor} {n : Nat} (hn : n < 128) (h : c.toNat = n) : c = BitVec.ofNat 7 n := by
  apply BitVec.eq_of_toNat_eq
  rw [h, BitVec.toNat_ofNat]
  omega

/-- With `CUR ≤ 55` the marker and the zeros up to position 56 go into the current block (R174, the `else` branch). -/
theorem State.padToLength_one (s : State) (hc : s.cur.toNat ≤ 55) (hw : s.Written) :
    ∃ u, s.padToLength = .ok u ∧ State.ReadyForLength s u s.h s.tailByte := by
  obtain ⟨v, u, hv, hu, hp⟩ := State.mark_and_fill s 56 (by omega) (by omega)
  refine ⟨u, ?_, ?_, fun p h => hp.tail hw (by omega), fun p h => ?_, hp.wf⟩
  · rw [State.padToLength, if_neg (by omega)]
    simp [hv, hu, bind, Except.bind]
  · have h56 : u.cur = 56#7 := cursor_eq (by omega) (by rw [hp.cur]; omega)
    have := hp.frame
    rw [h56] at this
    rw [this]
  · rw [hp.read, if_neg (by omega)]

/-- With `56 ≤ CUR ≤ 63` the block is completed and compressed, and 56 zero bytes start the next one (R174, the `if`
branch). -/
theorem State.padToLength_two (s : State) (h1 : 56 ≤ s.cur.toNat) (h2 : s.cur.toNat ≤ 63) (hw : s.Written) :
    ∃ u, s.padToLength = .ok u ∧
      State.ReadyForLength s u (compressBlock s.h s.markedBlock) (fun _ => 0x00#8) := by
  obtain ⟨v, u, hv, hu, hp⟩ := State.mark_and_fill s 64 (by omega) (by omega)
  have hfull : ∀ p (hp : p < 64), u.buf.read p = some s.markedBlock[p] := by
    intro p hlt
    rw [hp.tail hw (by omega)]
    simp [State.markedBlock]
  have hcomp := State.compress_block u s.markedBlock hfull
  obtain ⟨t, ht, hut⟩ := State.fillTo_put (((u.setH (compressBlock u.h s.markedBlock)).setCur 0#7).scrambleEph) 56
    (by simp) (by omega)
  have hframe := hp.frame
  have h56 : t.cur = 56#7 := cursor_eq (by omega) (by rw [hut.cur]; simp)
  refine ⟨t, ?_, ?_, fun p h => ?_, fun p h => ?_, fun h => hut.wf (hp.wf h)⟩
  · rw [State.padToLength, if_pos h1]
    simp [hv, hu, hcomp, ht, bind, Except.bind]
  · have ht' := hut.frame
    have huh : u.h = s.h := by rw [hframe]
    rw [h56] at ht'
    rw [ht', huh]
    simp [State.scrambleEph, State.setCur, State.setH]
    rw [hframe]
    simp
  · rw [hut.read, if_pos (by simpa using h)]
  · rw [hut.read, if_neg (by simp; omega)]
    simp only [State.scrambleEph_buf, State.setCur_buf, State.setH_buf]
    rw [hp.read, if_neg (by omega)]

/-- The second half of `PAD`: the length field and the last compression (R174). -/
theorem State.pad_of_ready {s u : State} {h : DigestState} {f : Nat → Byte} (b : Block)
    (hu : s.padToLength = .ok u) (hr : State.ReadyForLength s u h f)
    (hlow : ∀ p (hp : p < 64), p < 56 → b[p] = f p)
    (hhigh : ∀ p (hp : p < 64), 56 ≤ p → b[p] = (s.len >>> (8 * (63 - p))).setWidth 8) :
    ∃ t, s.pad = .ok t ∧
      t = { s with h := compressBlock h b, buf := t.buf, cur := 0#7, eph := t.eph, epoch := t.epoch } ∧
      (∀ p (hp : p < 64), t.buf.read p = some b[p]) ∧
      (∀ p, 64 ≤ p → t.buf.read p = s.buf.read p) ∧ (s.buf.wf = true → t.buf.wf = true) := by
  have hlen : u.len = s.len := by rw [hr.frame]
  have hl8 : (lengthBytes u.len).length = 8 := rfl
  obtain ⟨m, hm, hread, hwf⟩ := State.writeBytes_ok (lengthBytes u.len) u 56 (by omega)
  have hfull : ∀ p (hp : p < 64), ((u.setBuf m).setCur 64#7).buf.read p = some b[p] := by
    intro p hp
    simp only [State.setCur_buf, State.setBuf_buf]
    rw [hread, hl8]
    by_cases hc : p < 56
    · rw [if_neg (by omega), hr.low p hc, hlow p hp hc]
    · rw [if_pos (by omega), lengthBytes_getElem? u.len (by omega) hp, hlen, hhigh p hp (by omega)]
  have huh : u.h = h := by rw [hr.frame]
  refine ⟨((((u.setBuf m).setCur 64#7).setH (compressBlock u.h b)).setCur 0#7).scrambleEph, ?_, ?_,
    fun p hp => by simpa using hfull p hp, fun p hp => ?_, fun h => ?_⟩
  · simp [State.pad, hu, hm, State.compress_block _ b hfull, bind, Except.bind]
  · rw [huh, hr.frame]
    rfl
  · simp only [State.scrambleEph_buf, State.setCur_buf, State.setH_buf, State.setBuf_buf]
    rw [hread, hl8, if_neg (by omega), hr.high p hp]
  · simpa using hwf (hr.wf h)

/-- `PAD` (R174), for every cursor a command can find: the last block stands in `BUF`, and `H` is what the one or
two compressions leave. -/
theorem State.pad_ok (s : State) (hc : s.cur.toNat ≤ 63) (hw : s.Written) :
    ∃ t, s.pad = .ok t ∧
      t = { s with h := s.closedH, buf := t.buf, cur := 0#7, eph := t.eph, epoch := t.epoch } ∧
      (∀ p (hp : p < 64), t.buf.read p = some s.lastBlock[p]) ∧
      (∀ p, 64 ≤ p → t.buf.read p = s.buf.read p) ∧ (s.buf.wf = true → t.buf.wf = true) := by
  by_cases h55 : s.cur.toNat ≤ 55
  · obtain ⟨u, hu, hr⟩ := State.padToLength_one s h55 hw
    have := State.pad_of_ready s.lastBlock hu hr
      (fun p hp h => by rw [State.lastBlock_getElem s p hp, if_pos h, if_pos h55])
      (fun p hp h => by rw [State.lastBlock_getElem s p hp, if_neg (by omega)])
    rwa [show compressBlock s.h s.lastBlock = s.closedH by rw [State.closedH, if_pos h55]] at this
  · obtain ⟨u, hu, hr⟩ := State.padToLength_two s (by omega) hc hw
    have := State.pad_of_ready s.lastBlock hu hr
      (fun p hp h => by rw [State.lastBlock_getElem s p hp, if_pos h, if_neg h55])
      (fun p hp h => by rw [State.lastBlock_getElem s p hp, if_neg (by omega)])
    rwa [show compressBlock (compressBlock s.h s.markedBlock) s.lastBlock = s.closedH by
      rw [State.closedH, if_neg h55]] at this

/-- `DO_FINALIZE` on a closed message does nothing (R173). -/
theorem State.doFinalize_closed (s : State) (h : s.computed = true) : s.doFinalize = .ok s := by
  simp [State.doFinalize, h]

/-- `DO_FINALIZE` on an open message (R173). -/
theorem State.doFinalize_open (s : State) (h : s.computed = false) (hc : s.cur.toNat ≤ 63) (hw : s.Written) :
    ∃ t, s.doFinalize = .ok t ∧
      t = { s with h := s.closedH, buf := t.buf, cur := 0#7, len := 0#64, computed := true, eph := t.eph,
                   epoch := t.epoch } ∧
      (∀ p (hp : p < 64), t.buf.read p = some s.lastBlock[p]) ∧
      (∀ p, 64 ≤ p → t.buf.read p = s.buf.read p) ∧ (s.buf.wf = true → t.buf.wf = true) := by
  obtain ⟨u, hu, hf, hr, hh, hwf⟩ := State.pad_ok s hc hw
  refine ⟨(u.setLen 0#64).setComputed true, ?_, ?_, ?_, ?_, ?_⟩
  · simp [State.doFinalize, h, hu, bind, Except.bind, pure, Except.pure]
  · rw [hf]
    rfl
  · simpa using hr
  · simpa using hh
  · simpa using hwf

/-- On an open message with `CUR ≥ 64` there is nowhere to put the marker, and `DO_FINALIZE` stops. -/
theorem State.doFinalize_stops_high (s : State) (h : s.computed = false) (hc : ¬ s.cur.toNat ≤ 63) :
    ∃ f, s.doFinalize = .error f := by
  exact ⟨.noSuchPosition s.cur.toNat, by
    simp [State.doFinalize, h, State.pad, State.padToLength, show 56 ≤ s.cur.toNat by omega,
      State.putByte_error s markerByte (show ¬ s.cur.toNat < 64 by omega), bind, Except.bind]⟩

/-- On an open message whose current block has a byte without a value, `DO_FINALIZE` stops. -/
theorem State.doFinalize_stops_unwritten (s : State) (h : s.computed = false) (hc : s.cur.toNat ≤ 63)
    {p : Nat} (hp : p < s.cur.toNat) (hr : s.buf.read p = none) : ∃ f, s.doFinalize = .error f := by
  by_cases h55 : s.cur.toNat ≤ 55
  · obtain ⟨v, u, hv, hu, hput⟩ := State.mark_and_fill s 56 (by omega) (by omega)
    have hl8 : (lengthBytes u.len).length = 8 := rfl
    obtain ⟨m, hm, hread, -⟩ := State.writeBytes_ok (lengthBytes u.len) u 56 (by omega)
    have hnone : ((u.setBuf m).setCur 64#7).buf.read p = none := by
      simp only [State.setCur_buf, State.setBuf_buf]
      rw [hread, if_neg (by omega), hput.read, if_neg (by omega), hr]
    obtain ⟨q, hq⟩ := State.compress_error _ (show p < 64 by omega) hnone
    exact ⟨.unwrittenByte q, by
      simp [State.doFinalize, h, State.pad, State.padToLength, show ¬ 56 ≤ s.cur.toNat by omega, hv, hu, hm, hq,
        bind, Except.bind]⟩
  · obtain ⟨v, u, hv, hu, hput⟩ := State.mark_and_fill s 64 (by omega) (by omega)
    have hnone : u.buf.read p = none := by rw [hput.read, if_neg (by omega), hr]
    obtain ⟨q, hq⟩ := State.compress_error u (show p < 64 by omega) hnone
    exact ⟨.unwrittenByte q, by
      simp [State.doFinalize, h, State.pad, State.padToLength, show 56 ≤ s.cur.toNat by omega, hv, hu, hq,
        bind, Except.bind]⟩

/-- What `DO_FINALIZE` answers, it answers on a closed message or from a cursor and a block that allow it. -/
theorem State.doFinalize_inv {s t : State} (h : s.doFinalize = .ok t) :
    s.computed = true ∨ (s.computed = false ∧ s.cur.toNat ≤ 63 ∧ s.Written) := by
  cases hcomp : s.computed with
  | true => exact .inl rfl
  | false =>
    refine .inr ⟨rfl, ?_⟩
    by_cases hc : s.cur.toNat ≤ 63
    · refine ⟨hc, fun p hp => ?_⟩
      cases hr : s.buf.read p with
      | some v => rfl
      | none =>
        obtain ⟨f, hf⟩ := State.doFinalize_stops_unwritten s hcomp hc hp hr
        rw [hf] at h
        cases h
    · obtain ⟨f, hf⟩ := State.doFinalize_stops_high s hcomp hc
      rw [hf] at h
      cases h

end Sys2Proof.Machine
end

