-- ==== Sys2Proof/Laws/Commands.lean ====
section
/-! SUPPORT. What the meaning of each command answers, case by case, and the inversions that say there are no other
cases (43_hasher_commands.md R171 to R177). -/

namespace Sys2Proof.Machine

/-- The state an `INPUT` leaves that does not fill the block. -/
def afterByte (s : State) (d : Byte) : State :=
  { s with buf := s.buf.write s.cur.toNat d, cur := s.cur + 1#7, len := s.len + 8#64 }

/-- The state an `INPUT` leaves that fills the block `b`. -/
def afterFullBlock (s : State) (d : Byte) (b : Block) : State :=
  { s with h := compressBlock s.h b, buf := s.buf.write s.cur.toNat d, cur := 0#7, len := s.len + 8#64,
           eph := Config.residue s.epoch, epoch := s.epoch + 1 }

/-- The block that an `INPUT d` completes: what `BUF` holds with `d` at the cursor. -/
def filledBlock (s : State) (d : Byte) : Block :=
  (s.setBuf (s.buf.write s.cur.toNat d)).blockBytes

/-- With room behind it, the byte is stored and the counters advance. -/
theorem State.feedByte_short (s : State) (d : Byte) (h : s.cur.toNat < 63) :
    s.feedByte d = .ok (afterByte s d) := by
  have hne : ¬ s.cur + 1#7 = 64#7 := by
    intro he
    have := congrArg BitVec.toNat he
    simp [BitVec.toNat_add] at this
    omega
  simp [State.feedByte, State.putByte_ok s d (by omega), bind, Except.bind, pure, Except.pure, hne, afterByte, addW,
    State.setLen, State.setBuf, State.setCur]

/-- At position 63 the byte fills the block, which is compressed. -/
theorem State.feedByte_full (s : State) (d : Byte) (h : s.cur.toNat = 63) (hw : s.Written) :
    s.feedByte d = .ok (afterFullBlock s d (filledBlock s d)) := by
  have he : s.cur + 1#7 = 64#7 := by
    apply BitVec.eq_of_toNat_eq
    simp [BitVec.toNat_add, h]
  have hall : ∀ p, p < 64 → ((((s.setBuf (s.buf.write s.cur.toNat d)).setCur (s.cur + 1#7)).setLen
      (addW s.len 8#64)).buf.read p).isSome = true := by
    intro p hp
    simp only [State.setLen_buf, State.setCur_buf, State.setBuf_buf, Memory.read_write]
    split
    · rfl
    · exact hw p (by omega)
  have hc := State.compress_ok _ hall
  simp [State.feedByte, State.putByte_ok s d (by omega), bind, Except.bind, he, State.setLen_cur] at hc ⊢
  rw [hc]
  simp [afterFullBlock, filledBlock, State.blockBytes, addW, State.setLen, State.setBuf, State.setCur, State.setH,
    State.scrambleEph]

/-- At position 63, with a byte of the block missing, the compression stops. -/
theorem State.feedByte_stops_unwritten (s : State) (d : Byte) (h : s.cur.toNat = 63) {p : Nat}
    (hp : p < s.cur.toNat) (hr : s.buf.read p = none) : ∃ f, s.feedByte d = .error f := by
  have he : s.cur + 1#7 = 64#7 := by
    apply BitVec.eq_of_toNat_eq
    simp [BitVec.toNat_add, h]
  have hnone : (((s.setBuf (s.buf.write s.cur.toNat d)).setCur (s.cur + 1#7)).setLen
      (addW s.len 8#64)).buf.read p = none := by
    simp only [State.setLen_buf, State.setCur_buf, State.setBuf_buf, Memory.read_write]
    rw [if_neg (by omega), hr]
  obtain ⟨q, hq⟩ := State.compress_error _ (show p < 64 by omega) hnone
  refine ⟨.unwrittenByte q, ?_⟩
  simp [State.feedByte, State.putByte_ok s d (by omega), bind, Except.bind, he] at hq ⊢
  exact hq

/-- At position 64 and above there is nowhere to store the byte. -/
theorem State.feedByte_stops_high (s : State) (d : Byte) (h : ¬ s.cur.toNat ≤ 63) :
    s.feedByte d = .error (.noSuchPosition s.cur.toNat) := by
  simp [State.feedByte, State.putByte_error s d (by omega), bind, Except.bind]

/-- Everything that storing a byte can answer. -/
theorem State.feedByte_inv {s t : State} {d : Byte} (h : s.feedByte d = .ok t) :
    (s.cur.toNat < 63 ∧ t = afterByte s d) ∨
      (s.cur.toNat = 63 ∧ s.Written ∧ t = afterFullBlock s d (filledBlock s d)) := by
  rcases Nat.lt_trichotomy s.cur.toNat 63 with hlt | heq | hgt
  · rw [State.feedByte_short s d hlt] at h
    exact .inl ⟨hlt, by cases h; rfl⟩
  · have hw : s.Written := by
      intro p hp
      cases hr : s.buf.read p with
      | some v => rfl
      | none =>
        obtain ⟨f, hf⟩ := State.feedByte_stops_unwritten s d heq hp hr
        rw [hf] at h
        cases h
    rw [State.feedByte_full s d heq hw] at h
    exact .inr ⟨heq, hw, by cases h; rfl⟩
  · rw [State.feedByte_stops_high s d (by omega)] at h
    cases h

/-- `INIT` answers in every state (R171). -/
theorem execInit_eq (s : State) : execInit s = .next (s.loadInitial.respond ⟨.ok, none⟩) := rfl

/-- `INPUT` on a closed message (R202). -/
theorem execInput_closed (d : Byte) (s : State) (h : s.computed = true) :
    execInput d s = .next (s.respond ⟨.alreadyFinalized, none⟩) := by
  simp [execInput, h]

/-- `INPUT` on an open message answers what storing the byte answers (R172). -/
theorem execInput_ok {d : Byte} {s t : State} (h : s.computed = false) (hf : s.feedByte d = .ok t) :
    execInput d s = .next (t.respond ⟨.ok, none⟩) := by
  simp [execInput, h, hf, outcome, bind, Except.bind, pure, Except.pure]

/-- Everything that `INPUT` can answer (R172, R177). -/
theorem execInput_inv {d : Byte} {s t : State} (h : execInput d s = .next t) :
    (s.computed = true ∧ t = s.respond ⟨.alreadyFinalized, none⟩) ∨
      (s.computed = false ∧ s.cur.toNat < 63 ∧ t = (afterByte s d).respond ⟨.ok, none⟩) ∨
      (s.computed = false ∧ s.cur.toNat = 63 ∧ s.Written ∧
        t = (afterFullBlock s d (filledBlock s d)).respond ⟨.ok, none⟩) := by
  cases hc : s.computed with
  | true =>
    rw [execInput_closed d s hc] at h
    exact .inl ⟨rfl, by cases h; rfl⟩
  | false =>
    cases hf : s.feedByte d with
    | error e => simp [execInput, hc, hf, outcome, bind, Except.bind] at h
    | ok u =>
      rw [execInput_ok hc hf] at h
      cases h
      rcases State.feedByte_inv hf with ⟨h1, rfl⟩ | ⟨h1, h2, rfl⟩
      · exact .inr (.inl ⟨rfl, h1, rfl⟩)
      · exact .inr (.inr ⟨rfl, h1, h2, rfl⟩)

/-- `FINALIZE` answers what `DO_FINALIZE` answers (R173). -/
theorem execFinalize_ok {s t : State} (h : s.doFinalize = .ok t) :
    execFinalize s = .next (t.respond ⟨.ok, none⟩) := by
  simp [execFinalize, h, outcome, bind, Except.bind, pure, Except.pure]

/-- `RESULT` answers what `DO_FINALIZE` answers, with the digest (R175). -/
theorem execResult_ok {s t : State} (h : s.doFinalize = .ok t) :
    execResult s = .next (t.respond ⟨.ok, some (extractDigest t.h)⟩) := by
  simp [execResult, h, outcome, bind, Except.bind, pure, Except.pure]

/-- What `FINALIZE` answers comes from `DO_FINALIZE`. -/
theorem execFinalize_inv {s t : State} (h : execFinalize s = .next t) :
    ∃ u, s.doFinalize = .ok u ∧ t = u.respond ⟨.ok, none⟩ := by
  cases hf : s.doFinalize with
  | error e => simp [execFinalize, hf, outcome, bind, Except.bind] at h
  | ok u =>
    rw [execFinalize_ok hf] at h
    exact ⟨u, rfl, by cases h; rfl⟩

/-- What `RESULT` answers comes from `DO_FINALIZE`. -/
theorem execResult_inv {s t : State} (h : execResult s = .next t) :
    ∃ u, s.doFinalize = .ok u ∧ t = u.respond ⟨.ok, some (extractDigest u.h)⟩ := by
  cases hf : s.doFinalize with
  | error e => simp [execResult, hf, outcome, bind, Except.bind] at h
  | ok u =>
    rw [execResult_ok hf] at h
    exact ⟨u, rfl, by cases h; rfl⟩

/-- Everything that `DO_FINALIZE` can answer, as one case split (R173). -/
theorem State.doFinalize_cases {s u : State} (h : s.doFinalize = .ok u) :
    (s.computed = true ∧ u = s) ∨
      (s.computed = false ∧ s.cur.toNat ≤ 63 ∧ s.Written ∧
        u = { s with h := s.closedH, buf := u.buf, cur := 0#7, len := 0#64, computed := true, eph := u.eph,
                     epoch := u.epoch } ∧
        (∀ p (hp : p < 64), u.buf.read p = some s.lastBlock[p]) ∧
        (∀ p, 64 ≤ p → u.buf.read p = s.buf.read p) ∧ (s.buf.wf = true → u.buf.wf = true)) := by
  rcases State.doFinalize_inv h with hc | ⟨hc, hcur, hw⟩
  · rw [State.doFinalize_closed s hc] at h
    exact .inl ⟨hc, by cases h; rfl⟩
  · obtain ⟨t, ht, hrest⟩ := State.doFinalize_open s hc hcur hw
    rw [ht] at h
    cases h
    exact .inr ⟨hc, hcur, hw, hrest⟩

/-- One step on a command word that decodes is the command, with the word taken off the port (R96). -/
theorem step_command {s : State} {w : CmdWord} {rest : List HostEvent} {i : Instr}
    (hp : s.port = .command w :: rest) (hd : decode w = .ok i) : step s = exec i (s.setPort rest) := by
  simp [step, hp, execWord, hd]

/-- One step on an illegal word is the error response (R206). -/
theorem step_illegal {s : State} {w : CmdWord} {rest : List HostEvent} {e : DecodeError}
    (hp : s.port = .command w :: rest) (hd : decode w = .error e) :
    step s = .next ((s.setPort rest).respond ⟨.illegalCommand, none⟩) := by
  simp [step, hp, execWord, hd, execIllegal]

/-- Everything a step can be (R96, R230, R232, R245). -/
theorem step_cases (s : State) :
    (s.port = [] ∧ step s = .next s) ∨
      (∃ w rest i, s.port = .command w :: rest ∧ decode w = .ok i ∧ step s = exec i (s.setPort rest)) ∨
      (∃ w rest e, s.port = .command w :: rest ∧ decode w = .error e ∧
        step s = .next ((s.setPort rest).respond ⟨.illegalCommand, none⟩)) ∨
      (∃ ev rest, s.port = ev :: rest ∧ (∀ w, ev ≠ .command w) ∧ step s = .next (s.setPort rest).hardwareReset) := by
  match hp : s.port with
  | [] => exact .inl ⟨rfl, by simp [step, hp]⟩
  | .command w :: rest =>
    cases hd : decode w with
    | ok i => exact .inr (.inl ⟨w, rest, i, rfl, hd, step_command hp hd⟩)
    | error e => exact .inr (.inr (.inl ⟨w, rest, e, rfl, hd, step_illegal hp hd⟩))
  | .reset :: rest => exact .inr (.inr (.inr ⟨.reset, rest, rfl, by simp, by simp [step, hp]⟩))
  | .abandoned w :: rest => exact .inr (.inr (.inr ⟨.abandoned w, rest, rfl, by simp, by simp [step, hp]⟩))

end Sys2Proof.Machine
end

