-- ==== Sys2Proof/Laws/Decode.lean ====
section
/-! SUPPORT. The fields of a command word, and what the decoder answers for each (30_encoding.md R81, R90). -/

namespace Sys2Proof

/-- `OP` of a word written as its two fields. -/
theorem opField_append (op : BitVec 4) (data : Byte) : opField (op ++ data) = op := by
  apply BitVec.eq_of_getLsbD_eq
  intro i hi
  have h : (op ++ data).getLsbD (8 + i) = op.getLsbD i :=
    (BitVec.getLsbD_append (x := op) (y := data) (i := 8 + i)).trans (by simp)
  simpa [opField, hi] using h

/-- `DATA` of a word written as its two fields. -/
theorem dataField_append (op : BitVec 4) (data : Byte) : dataField (op ++ data) = data := by
  apply BitVec.eq_of_getLsbD_eq
  intro i hi
  have h : (op ++ data).getLsbD i = data.getLsbD i :=
    (BitVec.getLsbD_append (x := op) (y := data) (i := i)).trans (by simp [hi])
  simpa [dataField, hi] using h

/-- A word is its two fields (R81). -/
theorem fields_append (c : CmdWord) : opField c ++ dataField c = c := by
  apply BitVec.eq_of_getLsbD_eq
  intro i hi
  simp only [BitVec.getLsbD_append, opField, dataField, BitVec.getLsbD_extractLsb]
  split
  · simp
    omega
  · have : i - 8 < 4 := by omega
    have h8 : 8 + (i - 8) = i := by omega
    simp [h8]
    omega

/-- A word is determined by its fields. -/
theorem word_ext {c c' : CmdWord} (h1 : opField c = opField c') (h2 : dataField c = dataField c') : c = c' := by
  rw [← fields_append c, ← fields_append c', h1, h2]

/-- The fields of `INIT`. -/
@[simp] theorem fields_init : opField (encode .init) = 0x0#4 ∧ dataField (encode .init) = 0x00#8 := by decide

/-- The fields of `INPUT d`. -/
@[simp] theorem fields_input (d : Byte) :
    opField (encode (.input d)) = 0x1#4 ∧ dataField (encode (.input d)) = d :=
  ⟨opField_append 0x1#4 d, dataField_append 0x1#4 d⟩

/-- The fields of `FINALIZE`. -/
@[simp] theorem fields_finalize : opField (encode .finalize) = 0x2#4 ∧ dataField (encode .finalize) = 0x00#8 := by
  decide

/-- The fields of `RESULT`. -/
@[simp] theorem fields_result : opField (encode .result) = 0x3#4 ∧ dataField (encode .result) = 0x00#8 := by decide

/-- Everything the decoder can answer, with the fields that make it do so (R84, R90). -/
theorem decode_cases (c : CmdWord) :
    (opField c = 0x1#4 ∧ decode c = .ok (.input (dataField c))) ∨
      (opField c = 0x0#4 ∧ dataField c = 0x00#8 ∧ decode c = .ok .init) ∨
      (opField c = 0x2#4 ∧ dataField c = 0x00#8 ∧ decode c = .ok .finalize) ∨
      (opField c = 0x3#4 ∧ dataField c = 0x00#8 ∧ decode c = .ok .result) ∨
      ((opField c).toNat ≤ 3 ∧ opField c ≠ 0x1#4 ∧ dataField c ≠ 0x00#8 ∧ decode c = .error .nonzeroData) ∨
      (4 ≤ (opField c).toNat ∧ decode c = .error .reservedOpcode) := by
  by_cases h1 : opField c = 0x1#4
  · exact .inl ⟨h1, by simp [decode, h1]⟩
  · by_cases hd : dataField c = 0x00#8
    · by_cases h0 : opField c = 0x0#4
      · exact .inr (.inl ⟨h0, hd, by simp [decode, h0, hd]⟩)
      · by_cases h2 : opField c = 0x2#4
        · exact .inr (.inr (.inl ⟨h2, hd, by simp [decode, h2, hd]⟩))
        · by_cases h3 : opField c = 0x3#4
          · exact .inr (.inr (.inr (.inl ⟨h3, hd, by simp [decode, h3, hd]⟩)))
          · have h4 : 4 ≤ (opField c).toNat := by
              have hne : ∀ k : BitVec 4, opField c ≠ k → (opField c).toNat ≠ k.toNat :=
                fun k hk he => hk (BitVec.eq_of_toNat_eq he)
              have a := hne _ h0
              have b := hne _ h1
              have e := hne _ h2
              have f := hne _ h3
              simp at a b e f
              omega
            refine .inr (.inr (.inr (.inr (.inr ⟨h4, ?_⟩))))
            have : ¬ (opField c).toNat ≤ 3 := by omega
            simp [decode, h0, h1, h2, h3, this]
    · by_cases h3 : (opField c).toNat ≤ 3
      · exact .inr (.inr (.inr (.inr (.inl ⟨h3, h1, hd, by simp [decode, h1, hd, h3]⟩))))
      · exact .inr (.inr (.inr (.inr (.inr ⟨by omega, by simp [decode, h1, hd, h3]⟩))))

end Sys2Proof
end

