-- ==== Sys2Proof/Laws/PerInstr.lean ====
section
/-! SUPPORT. The per-instruction family `Encoding`: the word of each command matches its row of
spec/opcode_table.json (30_encoding.md R82). -/

namespace Sys2Proof.Laws.Encoding

/-- The `match` of the row of R82. -/
def rowMatch : Instr → CmdWord
  | .init => 0x000#12
  | .input _ => 0x100#12
  | .finalize => 0x200#12
  | .result => 0x300#12

/-- The `mask` of the row of R82. -/
def rowMask : Instr → CmdWord
  | .init => 0xFFF#12
  | .input _ => 0xF00#12
  | .finalize => 0xFFF#12
  | .result => 0xFFF#12

/-- The word of `i` is well-formed, and selects the row of `i`: `c ∧ mask = match`. -/
def Statement (i : Instr) : Prop :=
  i.wellFormed = true ∧ fieldsLegal (opField (encode i)) (dataField (encode i)) = true ∧
    encode i &&& rowMask i = rowMatch i

theorem init : Statement .init := by
  refine ⟨rfl, ?_, ?_⟩ <;> decide

theorem input (d : Byte) : Statement (.input d) := by
  refine ⟨rfl, ?_, ?_⟩
  · rw [(fields_input d).1]
    simp [fieldsLegal, opcodeLegal, dataLegal]
  · ext i hi
    simp only [encode, rowMask, rowMatch, BitVec.getElem_and, BitVec.getElem_append]
    split
    · have : i = 0 ∨ i = 1 ∨ i = 2 ∨ i = 3 ∨ i = 4 ∨ i = 5 ∨ i = 6 ∨ i = 7 := by omega
      rcases this with rfl | rfl | rfl | rfl | rfl | rfl | rfl | rfl <;> simp
    · have : i = 8 ∨ i = 9 ∨ i = 10 ∨ i = 11 := by omega
      rcases this with rfl | rfl | rfl | rfl <;> simp

theorem finalize : Statement .finalize := by
  refine ⟨rfl, ?_, ?_⟩ <;> decide

theorem result : Statement .result := by
  refine ⟨rfl, ?_, ?_⟩ <;> decide

end Sys2Proof.Laws.Encoding
end

