-- ==== Sys2Proof/Laws/Run.lean ====
section
/-! SUPPORT. Runs of several steps, one step at a time (70_reset_and_hazards.md R245). -/

namespace Sys2Proof.Machine

/-- No step. -/
@[simp] theorem State.run_zero (s : State) : s.run 0 = .next s := rfl

/-- A run goes on from what its first step answers. -/
theorem State.run_next {s t : State} (n : Nat) (h : step s = .next t) : s.run (n + 1) = t.run n := by
  have h' : Sys2Proof.core.step s = .next t := h
  simp only [State.run, Host.Core.run, h']
  rfl

/-- A run that goes on starts with a step that goes on. -/
theorem State.run_next_inv {s u : State} {n : Nat} (h : s.run (n + 1) = .next u) :
    ∃ t, step s = .next t ∧ t.run n = .next u := by
  cases hs : step s with
  | next t => exact ⟨t, rfl, by rw [← State.run_next n hs]; exact h⟩
  | fault f =>
    have h' : Sys2Proof.core.step s = .fault f := hs
    simp only [State.run, Host.Core.run, h'] at h
    cases h
  | refused r =>
    have h' : Sys2Proof.core.step s = .refused r := hs
    simp only [State.run, Host.Core.run, h'] at h
    cases h

/-- A run of `n + k` steps is a run of `k` after one of `n`. -/
theorem State.run_add {s t : State} {n : Nat} (k : Nat) (h : s.run n = .next t) : s.run (n + k) = t.run k := by
  induction n generalizing s with
  | zero =>
    cases h
    rw [Nat.zero_add]
  | succ n ih =>
    obtain ⟨u, hu, hr⟩ := State.run_next_inv h
    rw [show n + 1 + k = (n + k) + 1 by omega, State.run_next (n + k) hu]
    exact ih hr

/-- No byte, no command (R92). -/
@[simp] theorem State.inputs_nil (s : State) : s.inputs [] = .next s := rfl

/-- No chunk, no command. -/
@[simp] theorem State.inputsEach_nil (s : State) : s.inputsEach [] = .next s := rfl

/-- Chunks after one that goes on are fed to the state it left. -/
theorem State.inputsEach_cons {s t : State} {m : List Byte} (chunks : List (List Byte)) (h : s.inputs m = .next t) :
    s.inputsEach (m :: chunks) = t.inputsEach chunks := by
  simp only [State.inputsEach, h]

end Sys2Proof.Machine
end

