-- ==== Sys2Proof/Laws/WordAlgebra.lean ====
section
/-! SUPPORT. The word algebra in the library's terms (40_word_algebra.md), and the big-endian assembly of a word. -/

namespace Sys2Proof.Machine

/-- The two terms of a rotation never overlap (R118). -/
theorem rotl_terms_disjoint {w : Nat} (x : BitVec w) (n : Nat) (h : n < w) : shl x n &&& shr x (w - n) = 0#w := by
  ext i hi
  simp only [shl, shr, BitVec.getElem_and, BitVec.getElem_shiftLeft, BitVec.getElem_ushiftRight, BitVec.getElem_zero,
    Bool.and_eq_false_iff]
  by_cases hc : i < n
  · simp [hc]
  · exact .inr (BitVec.getLsbD_of_ge _ _ (by omega))

/-- `ROTL` is the library's rotation to the left. -/
theorem rotl_eq_rotateLeft {w : Nat} (x : BitVec w) (n : Nat) (h : n < w) : rotl x n h = x.rotateLeft n := by
  simp [rotl, orW, shl, shr, BitVec.rotateLeft, Nat.mod_eq_of_lt h, BitVec.rotateLeftAux]

/-- Four bytes shifted into place and joined are the four bytes one after the other (R53(a), R141). -/
theorem assemble_eq_append (p q r u : Byte) :
    orW (orW (orW (shl (zext 32 p) 24) (shl (zext 32 q) 16)) (shl (zext 32 r) 8)) (zext 32 u) = p ++ q ++ r ++ u := by
  apply BitVec.eq_of_getLsbD_eq
  intro i hi
  have e : (p ++ q ++ r ++ u).getLsbD i = if i < 8 then u.getLsbD i else if i - 8 < 8 then r.getLsbD (i - 8)
      else if i - 8 - 8 < 8 then q.getLsbD (i - 8 - 8) else p.getLsbD (i - 8 - 8 - 8) := by
    refine (BitVec.getLsbD_append).trans ?_
    simp only [BitVec.getLsbD_append]
  rw [e]
  interval_cases i <;> simp [orW, shl, zext]

end Sys2Proof.Machine
end

