-- ==== Sys2Proof/Laws/Schedule.lean ====
section
/-! SUPPORT. The words of the schedule one by one (41_message_schedule.md R141, R142). -/

namespace Sys2Proof.Machine

/-- Every computed word keeps its value while later words are computed. -/
theorem scheduleWords_getElem (b : Block) (n t : Nat) (h : t < n) :
    (scheduleWords b n)[t]'(by rw [scheduleWords_length]; exact h) = scheduleNext b (scheduleWords b t) t := by
  induction n with
  | zero => omega
  | succ n ih =>
    by_cases hc : t < n
    · simp only [scheduleWords]
      rw [List.getElem_append_left]
      exact ih hc
    · have : t = n := by omega
      subst this
      simp [scheduleWords, List.getElem_append_right, scheduleWords_length]

/-- `W[t]`, from the words before it. -/
theorem schedule_getElem (b : Block) (t : Nat) (h : t < 80) :
    (schedule b)[t] = scheduleNext b (scheduleWords b t) t := by
  simp only [schedule, Vector.getElem_mk, List.getElem_toArray]
  exact scheduleWords_getElem b 80 t h

/-- The words before `W[t]`, as `W[t]` reads them. -/
theorem scheduleWords_getD (b : Block) (t k : Nat) (h : k < t) (ht : t ≤ 80) :
    (scheduleWords b t).getD k 0#32 = (schedule b)[k]'(by omega) := by
  rw [List.getD_eq_getElem _ _ (by rw [scheduleWords_length]; exact h), scheduleWords_getElem b t k h,
    schedule_getElem]

/-- A word of the block is its four bytes one after the other (R53(a)). -/
theorem blockWord_eq (b : Block) (i : Fin 16) : blockWord b i =
    b[4 * i.val]'(by omega) ++ b[4 * i.val + 1]'(by omega) ++ b[4 * i.val + 2]'(by omega) ++
      b[4 * i.val + 3]'(by omega) :=
  assemble_eq_append _ _ _ _

end Sys2Proof.Machine
end

