-- ==== Sys2Proof/Tests/Slice0.lean ====
section
/-! SUPPORT. Tests of the model against the values of spec/95_test_vectors.md and the worked examples of the rules, and
for every statement with hypotheses a witness that meets them. -/

namespace Sys2Proof.Tests

open Sys2Proof Sys2Proof.Machine

/-! ### Helpers -/

/-- An open message of `n ≤ 63` bytes `0x61`, all in the current block. -/
def openAt (n : Nat) : State :=
  { State.reset with
    buf := (List.range n).map fun p => (p, 0x61#8)
    cur := BitVec.ofNat 7 n
    len := BitVec.ofNat 64 (8 * n) }

/-- The message "abc", input but not finalized. -/
def openAbc : State :=
  { State.reset with buf := [(0, 0x61#8), (1, 0x62#8), (2, 0x63#8)], cur := 3#7, len := 24#64 }

/-- A closed message. -/
def closedState : State :=
  { State.reset with computed := true }

/-- The message block of "abc" (section 2.3). -/
def abcBlock : Block :=
  Vector.ofFn fun i =>
    if i.val = 0 then 0x61#8 else if i.val = 1 then 0x62#8 else if i.val = 2 then 0x63#8
    else if i.val = 3 then 0x80#8 else if i.val = 63 then 0x18#8 else 0x00#8

/-- A state whose buffer holds the block of "abc". -/
def abcFull : State :=
  { State.reset with buf := (List.range 64).map fun p => (p, abcBlock.getD p 0#8), cur := 64#7 }

/-- What a check says of the next state, and false of a stop. -/
def next? (o : Host.Outcome State Fault Refusal) (check : State → Bool) : Bool :=
  match o with
  | .next t => check t
  | _ => false

/-! ### Well-formedness: an ill-formed word for each check -/

/-- R84(a): the first reserved opcode fails the opcode check. -/
theorem test_wf_reserved_opcode : fieldsLegal 0x4#4 0x00#8 = false ∧ opcodeLegal 0x4#4 = false := by decide

/-- R84(b): `FINALIZE` with non-zero `DATA` fails the data check. -/
theorem test_wf_nonzero_data : fieldsLegal 0x2#4 0x01#8 = false ∧ dataLegal 0x2#4 0x01#8 = false := by decide

/-- R83: a data byte is legal for `INPUT`. -/
theorem test_wf_input : fieldsLegal 0x1#4 0xFF#8 = true ∧ (Instr.input 0xFF#8).wellFormed = true := by decide

/-! ### Decoding (section 2.6) -/

theorem test_decode_input_zero : decode 0b000100000000#12 = .ok (.input 0x00#8) := by decide
theorem test_decode_input_marker : decode 0b000110000000#12 = .ok (.input 0x80#8) := by decide
theorem test_decode_input_ff : decode 0b000111111111#12 = .ok (.input 0xFF#8) := by decide
theorem test_decode_init_with_data : decode 0x0FF#12 = .error .nonzeroData := by decide
theorem test_decode_result_with_data : decode 0x380#12 = .error .nonzeroData := by decide
theorem test_decode_first_reserved : decode 0x400#12 = .error .reservedOpcode := by decide
theorem test_decode_last : decode 0xFFF#12 = .error .reservedOpcode := by decide
theorem test_table_word : decodeTableWord 12 0x161 = some (.input 0x61#8) ∧ decodeTableWord 16 0x300 = some .result ∧
    decodeTableWord 12 0x201 = none := by decide

/-! ### Word algebra (section 2.1) -/

theorem test_add_wraps : addW 0x5A827999#32 0xCA62C1D6#32 = 0x24E53B6F#32 := by decide
theorem test_add64_wraps : addW 0xFFFFFFFFFFFFFFFF#64 8#64 = 7#64 := by decide
theorem test_not_keeps_width : notW 0x5A827999#32 = 0xA57D8666#32 := by decide
theorem test_shl_by_width : shl 0x12345678#32 32 = 0#32 ∧ shl 0x12345678#32 8 = 0x34567800#32 := by decide
theorem test_shr_is_logical : shr 0xFFFFFFFF#32 1 = 0x7FFFFFFF#32 ∧ shr 0x12345678#32 32 = 0#32 := by decide
theorem test_rotl_30 : rotl 0x12345678#32 30 = 0x048D159E#32 ∧ rotl 0x67452301#32 5 = 0xE8A4602C#32 := by decide
theorem test_rotl_0 : rotl 0x12345678#32 0 = 0x12345678#32 ∧ rotl 0x81#8 1 = 0x03#8 := by decide
theorem test_extract : extract 0xA9993E36#32 31 24 = 0xA9#8 ∧ extract 0x1C0#64 15 8 = 0x01#8 := by decide
theorem test_zext : zext 32 0x80#8 = 0x00000080#32 := by decide

/-! ### Schedule and datapath (sections 2.2, 2.3) -/

theorem test_schedule_16_to_19 :
    (scheduleWords abcBlock 20).drop 16 = [0xC2C4C700#32, 0#32, 0x00000030#32, 0x85898E01#32] := by decide +kernel

theorem test_round_functions :
    ch 0xEFCDAB89#32 0x98BADCFE#32 0x10325476#32 = 0x98BADCFE#32 ∧
    parity 0xEFCDAB89#32 0x98BADCFE#32 0x10325476#32 = 0x67452301#32 ∧
    maj 0xEFCDAB89#32 0x98BADCFE#32 0x10325476#32 = 0x98BADCFE#32 := by decide

/-- Step 0 of the "abc" block. -/
theorem test_step_0 : roundStep 0 0x61626380#32 (loadVars hinit) =
    ⟨0x0116FC33#32, 0x67452301#32, 0x7BF36AE2#32, 0x98BADCFE#32, 0x10325476#32⟩ := by decide

/-- Step 79 of the "abc" block, from the row of step 78. -/
theorem test_step_79 : roundStep 79 0x822E0879#32
    ⟨0x5738D5E1#32, 0x860D21CC#32, 0x681E6DF6#32, 0xD8FDF6AD#32, 0xD7B9DA25#32⟩ =
    ⟨0x42541B35#32, 0x5738D5E1#32, 0x21834873#32, 0x681E6DF6#32, 0xD8FDF6AD#32⟩ := by decide

/-- Step 40, the first of the `Maj` range. -/
theorem test_step_40 : (roundStep 40 0xD2E138C4#32
    ⟨0x32DE1CBA#32, 0x4C986405#32, 0xF718E5CF#32, 0x03D447F6#32, 0xF72EEC32#32⟩).a = 0xFC87DEDF#32 := by decide

theorem test_compress_abc : compressBlock hinit abcBlock =
    #v[0xA9993E36#32, 0x4706816A#32, 0xBA3E2571#32, 0x7850C26C#32, 0x9CD0D89D#32] := by decide +kernel

/-- The all-zero block (section 2.4). -/
theorem test_compress_zero_block : compressBlock hinit (Vector.replicate 64 0x00#8) =
    #v[0x92B404E5#32, 0x56588CED#32, 0x6C1ACD4E#32, 0xBF053F68#32, 0x09F73A93#32] := by decide +kernel

theorem test_digest_bytes :
    digestBytes #v[0xA9993E36#32, 0x4706816A#32, 0xBA3E2571#32, 0x7850C26C#32, 0x9CD0D89D#32] =
    [0xA9#8, 0x99#8, 0x3E#8, 0x36#8, 0x47#8, 0x06#8, 0x81#8, 0x6A#8, 0xBA#8, 0x3E#8, 0x25#8, 0x71#8, 0x78#8, 0x50#8,
     0xC2#8, 0x6C#8, 0x9C#8, 0xD0#8, 0xD8#8, 0x9D#8] := by decide

theorem test_length_bytes : lengthBytes 0x1C0#64 = [0#8, 0#8, 0#8, 0#8, 0#8, 0#8, 0x01#8, 0xC0#8] := by decide

/-! ### The commands, one step each -/

/-- `INIT` from a closed message (R171): the response is `OK`, `COMPUTED` is cleared. -/
theorem test_init : next? (execInit closedState) (fun t =>
    t.h == hinit && t.cur == 0#7 && t.len == 0#64 && !t.computed && t.responses == [⟨.ok, none⟩]) = true := by decide

/-- `INPUT 0x61` at `CUR = 63` (R172): the block of 64 bytes `0x61` is compressed. -/
theorem test_input_fills_block : next? (execInput 0x61#8 (openAt 63)) (fun t =>
    t.h == #v[0xDA4968EB#32, 0x2E377C1F#32, 0x884E8F52#32, 0x83524BEB#32, 0xE74EBDBD#32] && t.cur == 0#7 &&
      t.len == 512#64 && !t.computed) = true := by decide +kernel

/-- Section 2.7: `INPUT 0xAA` with `CUR = 5` and `LEN = 2^64 - 8`. -/
theorem test_input_len_wraps : next? (execInput 0xAA#8 { openAt 5 with len := 0xFFFFFFFFFFFFFFF8#64 }) (fun t =>
    t.cur == 6#7 && t.len == 0#64 && t.buf.read 5 == some 0xAA#8 && t.h == hinit) = true := by decide

/-- `FINALIZE` with 55 bytes, the longest tail that fits (section 2.5). -/
theorem test_finalize_55 : next? (execFinalize (openAt 55)) (fun t =>
    t.h == #v[0xC1C8BBDC#32, 0x22796E28#32, 0xC0E15163#32, 0xD20899B6#32, 0x5621D65A#32] && t.computed &&
      t.len == 0#64 && t.responses == [⟨.ok, none⟩]) = true := by decide +kernel

/-- `FINALIZE` with 56 bytes, the first that takes the extra block (section 2.5). -/
theorem test_finalize_56 : next? (execFinalize (openAt 56)) (fun t =>
    t.h == #v[0xC2DB330F#32, 0x6083854C#32, 0x99D4B5BF#32, 0xB6E8F29F#32, 0x201BE699#32] && t.computed &&
      t.cur == 0#7) = true := by decide +kernel

/-- `RESULT` on "abc" (R175). -/
theorem test_result_abc : next? (execResult openAbc) (fun t =>
    t.responses == [⟨.ok, some 0xA9993E364706816ABA3E25717850C26C9CD0D89D#160⟩]) = true := by decide +kernel

/-- `RESULT` right after reset: the digest of the empty message (section 2.4). -/
theorem test_result_empty : next? (execResult State.reset) (fun t =>
    t.responses == [⟨.ok, some 0xDA39A3EE5E6B4B0D3255BFEF95601890AFD80709#160⟩] && t.computed) = true := by
  decide +kernel

/-- An illegal word on a closed message is answered `IllegalCommand`, not `AlreadyFinalized` (R208). -/
theorem test_illegal_word : next? (step (closedState.withFetchWord 12 0x201)) (fun t =>
    t.responses == [⟨.illegalCommand, none⟩] && t.computed && t.port == []) = true := by decide

/-- A word placed on the port is the next one run, from reset (R233: ready for the first `INPUT`). -/
theorem test_fetch_from_reset : next? (step (State.reset.withFetchWord 12 0x161)) (fun t =>
    t.buf.read 0 == some 0x61#8 && t.cur == 1#7 && t.len == 8#64) = true := by decide

/-! ### Witnesses: for every statement with hypotheses, a state and operands that meet them together -/

/-- IllegalWordIsAnsweredWithNoStateChange: an open state and the word `0x201`; and the word `0x400`. -/
theorem witness_illegal_word :
    (closedState.withFetchWord 12 0x201).port = .command 0x201#12 :: [] ∧ (0x201#12).toNat / 256 = 2 ∧
      (0x201#12).toNat % 256 ≠ 0 ∧ 4 ≤ (0x400#12).toNat / 256 := by decide

/-- IllegalWordsAreExactlyTheUnlistedOnes, WordsSelectTheirRowByMatchAndMask, DecodingAndEncodingAgree: a word on each
side. -/
theorem witness_words : decode 0x1FF#12 = .ok (.input 0xFF#8) ∧ decode 0x4FF#12 = .error .reservedOpcode ∧
    (Instr.input 0x00#8).wellFormed = true := by decide

/-- RotateLeftMovesEveryBit, RotationLaws, WordAlgebraIsUnsignedArithmetic, ExtractAndZeroExtendAreUnsigned: amounts, positions and ranges at their
bounds. -/
theorem witness_word_algebra : 0 < 32 ∧ 31 < 32 ∧ (32 ≤ 32) ∧ (24 ≤ 31 ∧ 31 < 32) ∧ (8 ≤ 32) := by decide

/-- ScheduleFollowsItsRecurrence and ScheduleIsLinearOverBits: both ends of both index ranges. -/
theorem witness_schedule : 0 < 16 ∧ 15 < 16 ∧ (16 ≤ 16 ∧ 16 < 80) ∧ (16 ≤ 79 ∧ 79 < 80) := by decide

/-- FunctionAndConstantFollowTheStepRange and StepComputesTheSourceFormula: the boundaries of the four ranges. -/
theorem witness_step_ranges : roundConstant 19 = 0x5A827999#32 ∧ roundConstant 20 = 0x6ED9EBA1#32 ∧
    roundConstant 39 = 0x6ED9EBA1#32 ∧ roundConstant 40 = 0x8F1BBCDC#32 ∧ roundConstant 59 = 0x8F1BBCDC#32 ∧
    roundConstant 60 = 0xCA62C1D6#32 ∧ roundConstant 79 = 0xCA62C1D6#32 := by decide

/-- CompressWritesOnlyTheDigestStateAndTheCursor: a full buffer and its block. -/
theorem witness_full_buffer : ∀ p (hp : p < 64), abcFull.buf.read p = some abcBlock[p] := by decide +kernel

/-- CompressStopsOnlyOnAnUnwrittenByte: a buffer with a position that holds no value. -/
theorem witness_unwritten : 63 < 64 ∧ (openAt 63).buf.read 63 = none := by decide

/-- BufferReadsBackTheLastWrite: a canonical buffer and the last position. -/
theorem witness_write : (openAt 63).buf.wf = true ∧ 63 < 64 := by decide +kernel

/-- InitOnAFreshEngineChangesNothing: reset is fresh, and `INIT` answers a next state. -/
theorem witness_fresh : State.reset.fresh = true ∧ ∃ t, exec .init closedState = .next t := ⟨by decide, _, rfl⟩

/-- InputStoresOneByte, first clause: a closed message. -/
theorem witness_input_closed : closedState.computed = true := rfl

/-- InputStoresOneByte, second clause: an open message at both ends of `CUR ≤ 62`. -/
theorem witness_input_short : (openAt 0).computed = false ∧ (openAt 0).cur.toNat ≤ 62 ∧ (openAt 62).computed = false ∧
    (openAt 62).cur.toNat ≤ 62 := by decide

/-- InputStoresOneByte, third clause: `CUR = 63` and the block that the byte completes. -/
theorem witness_input_full : (openAt 63).computed = false ∧ (openAt 63).cur.toNat = 63 ∧
    (∀ p (hp : p < 63), (openAt 63).buf.read p = some (Vector.replicate 64 0x61#8)[p]) ∧
    (Vector.replicate 64 0x61#8)[63] = 0x61#8 := by decide +kernel

/-- InputAfterFinalizationIsRefused: `INPUT` answers on a closed message and on an open one. -/
theorem witness_input_answers : (∃ t, exec (.input 0x78#8) closedState = .next t) ∧
    (∃ t, exec (.input 0x78#8) State.reset = .next t) ∧ closedState.computed = true := ⟨⟨_, rfl⟩, ⟨_, rfl⟩, rfl⟩

/-- FinalizeClosesTheMessage and ResultPresentsTheDigest, open clause, at the boundaries of the two branches. -/
theorem witness_finalize_open : ∀ n ∈ [0, 55, 56, 63],
    (openAt n).computed = false ∧ (openAt n).cur.toNat ≤ 63 ∧
      ∀ p, p < (openAt n).cur.toNat → ((openAt n).buf.read p).isSome = true := by decide +kernel

/-- The last clause of the witness above is `State.Written`. -/
theorem witness_written : (openAt 63).Written := by
  unfold State.Written
  decide +kernel

/-- FinalizeClosesTheMessage and ResultPresentsTheDigest, closed clause; ResultIsAFixedPoint: `RESULT` answers with one
more response. -/
theorem witness_result_closed : closedState.computed = true ∧ ∃ t, exec .result closedState = .next t ∧
    t.responses = closedState.responses ++ [⟨.ok, some (extractDigest hinit)⟩] := ⟨rfl, _, rfl, rfl⟩

/-- ResultLeavesTheStateOfFinalize: `FINALIZE` answers somewhere, and stops somewhere, a cursor no run reaches. -/
theorem witness_finalize_answers_and_stops : (∃ t, exec .finalize closedState = .next t) ∧
    exec .finalize { State.reset with cur := 64#7 } = .fault (.noSuchPosition 64) := ⟨⟨_, rfl⟩, rfl⟩

/-- EveryCommandGivesOneResponse, ControlRegistersFollowTheTransitionTable, BufferBytesNotStoredToAreKept: each command
answers on an open or a closed message. -/
theorem witness_every_command_answers : (∃ t, exec .init (openAt 1) = .next t) ∧
    (∃ t, exec (.input 0x61#8) (openAt 1) = .next t) ∧ (∃ t, exec .finalize closedState = .next t) ∧
    (∃ t, exec .result closedState = .next t) := ⟨⟨_, rfl⟩, ⟨_, rfl⟩, ⟨_, rfl⟩, ⟨_, rfl⟩⟩

/-- BufferBytesNotStoredToAreKept: a finalization of an open message, and a position that it keeps. -/
theorem witness_finalize_keeps : (openAbc.computed = false) ∧
    (openAbc.cur.toNat ≤ 55 ∧ 2 < openAbc.cur.toNat) ∧ next? (exec .finalize openAbc) (fun _ => true) = true := by
  decide +kernel

/-- ErrorResponsesChangeNothing: the word `0x178` on a closed message is answered with an error. -/
theorem witness_error_response : (closedState.withFetchWord 12 0x178).port = .command 0x178#12 :: [] ∧
    ∃ t, step (closedState.withFetchWord 12 0x178) = .next t ∧
      t.responses = (closedState.withFetchWord 12 0x178).responses ++ [⟨.alreadyFinalized, none⟩] :=
  ⟨rfl, _, rfl, rfl⟩

/-- DigestStateIsWrittenOnlyByInitAndCompression: an `INIT` that changes `H`. -/
theorem witness_h_changes : ∃ t, exec .init { State.reset with h := Vector.replicate 5 0#32 } = .next t ∧
    t.h ≠ Vector.replicate 5 0#32 := ⟨_, rfl, by decide⟩

/-- StepRunsTheDecodedCommand: a word on the port that decodes. -/
theorem witness_step : (State.reset.withFetchWord 12 0x161).port = .command 0x161#12 :: [] ∧
    decode 0x161#12 = .ok (.input 0x61#8) := by decide

/-- StepWaitsWhenNothingIsPresented: reset has nothing on the port. -/
theorem witness_idle : State.reset.port = [] := rfl

/-- ResetEventsLoadTheInitialState: a port that presents each kind of reset. -/
theorem witness_reset_events : { openAbc with port := [.reset] }.port = .reset :: [] ∧
    { openAbc with port := [.abandoned 0x300#12] }.port = .abandoned 0x300#12 :: [] := ⟨rfl, rfl⟩

/-- EveryStepKeepsTheInvariant, TheEngineNeverStops: an open state with 63 bytes meets the invariant, and steps. -/
theorem witness_invariant : (openAt 63).Inv ∧ ∃ t, step (openAt 63) = .next t :=
  ⟨⟨by decide +kernel, by decide, witness_written, by decide, by decide⟩, _, rfl⟩

/-- OnlyInitAndResetReopenAMessage: `INIT` on a closed message. -/
theorem witness_reopen : closedState.computed = true ∧
    ∃ t, step (closedState.withFetchWord 12 0x000) = .next t ∧ t.computed = false := ⟨rfl, _, rfl, rfl⟩

/-- HiddenStateNeverReachesAResponse: two states that differ in a stale byte, and a run of one of them. -/
theorem witness_hidden : State.reset.Inv ∧ { State.reset with buf := [(5, 0xFF#8)] }.Inv ∧
    State.reset.SameVisible { State.reset with buf := [(5, 0xFF#8)] } ∧ ∃ t, State.reset.run 3 = .next t :=
  ⟨⟨rfl, by decide, fun p hp => absurd hp (Nat.not_lt_zero p), by decide, by decide⟩,
   ⟨by decide, by decide, fun p hp => absurd hp (Nat.not_lt_zero p), by decide, by decide⟩,
   ⟨rfl, rfl, rfl, rfl, rfl, rfl, fun p hp => absurd hp (Nat.not_lt_zero p)⟩, _, rfl⟩

/-- HashingAMessageGivesItsDigest: a message of an admitted length. -/
theorem witness_message : ([0x61#8, 0x62#8, 0x63#8] : List Byte).length < 2 ^ 61 := by decide

/-- ChunkingDoesNotMatter: a message cut in three, one of the chunks empty, and a cut that the engine accepts. -/
theorem witness_chunks : ([[0x61#8], [], [0x62#8, 0x63#8]] : List (List Byte)).flatten.length < 2 ^ 61 ∧
    ∃ t, (openAt 1).inputsEach [[0x61#8], [], [0x62#8, 0x63#8]] = .next t ∧ t.cur = 4#7 := by
  exact ⟨by decide, _, rfl, rfl⟩

/-- PaddedMessageIsWholeBlocks, last clause: the message "abc" and its 52 zero bytes. -/
theorem witness_padding : (3 + 1 + 52 + 8) % 64 = 0 ∧ paddingZeros 3 = 52 ∧ paddingZeros 56 = 63 := by decide

/-- IllegalWordsLeaveAMessageAlone: a run with an illegal word in it answers. -/
theorem witness_illegal_in_message : ∃ t, (State.reset.present [0x161#12, 0x400#12]).run 2 = .next t := ⟨_, rfl⟩

end Sys2Proof.Tests
end

section
/-! The words that decode are the words of the commands, so the decoder selects a row of the opcode map by `match` and
`mask`, and there are as many legal words as commands (30_encoding.md R82, R83). -/

namespace Sys2Proof.Encoding

/-! ### The decoder inverts the encoder -/

/-- Decoding the word of a command gives the command back (R82, R90). -/
@[simp] theorem decode_encode (i : Instr) : decode (encode i) = .ok i := by
  cases i with
  | init => decide
  | input d => simp [decode, fields_input d]
  | finalize => decide
  | result => decide

/-- A word that decodes is the word of the command it decodes to (R90). -/
theorem encode_of_decode_eq_ok {c : CmdWord} {i : Instr} (h : decode c = .ok i) : encode i = c := by
  obtain ⟨ho, hc⟩ | ⟨ho, hd, hc⟩ | ⟨ho, hd, hc⟩ | ⟨ho, hd, hc⟩ | ⟨-, -, -, hc⟩ | ⟨-, hc⟩ := decode_cases c <;>
    cases hc.symm.trans h
  · exact word_ext (by simp [ho]) (by simp)
  · exact word_ext (by simp [ho]) (by simp [hd])
  · exact word_ext (by simp [ho]) (by simp [hd])
  · exact word_ext (by simp [ho]) (by simp [hd])

/-- The words that decode to a command are its word alone. -/
theorem decode_eq_ok_iff {c : CmdWord} {i : Instr} : decode c = .ok i ↔ c = encode i :=
  ⟨fun h => (encode_of_decode_eq_ok h).symm, fun h => h ▸ decode_encode i⟩

/-- No two commands have the same word. -/
theorem encode_injective : Function.Injective encode := fun i j h =>
  Except.ok.inj ((decode_encode i).symm.trans (h ▸ decode_encode j))

/-! ### Rows by match and mask -/

/-- Under the mask of the rows with no operand, which keeps the whole word, a word decodes to a command exactly when it
is the command's word. -/
theorem decode_eq_ok_iff_fullMask {c : CmdWord} {i : Instr} : decode c = .ok i ↔ c &&& 0xFFF#12 = encode i := by
  have hmask : c &&& 0xFFF#12 = c := BitVec.and_allOnes
  rw [hmask, decode_eq_ok_iff]

/-- The mask of the row of `INPUT` keeps `OP` and clears `DATA`. -/
theorem opField_and_inputMask (c : CmdWord) : opField (c &&& 0xF00#12) = opField c :=
  calc opField (c &&& 0xF00#12)
      = opField c &&& opField 0xF00#12 := BitVec.extractLsb_and
    _ = opField c := BitVec.and_allOnes

/-- `DATA` is the low eight bits of the word as they stand (R83). -/
theorem dataField_eq_setWidth (c : CmdWord) : dataField c = c.setWidth 8 := by
  simp [dataField, BitVec.extractLsb, BitVec.extractLsb']

/-- A word is the word of `INPUT d` exactly when it selects that row and holds `d` in its low eight bits (R82, R83). -/
theorem eq_encode_input_iff (c : CmdWord) (d : Byte) :
    c = encode (.input d) ↔ c &&& 0xF00#12 = 0x100#12 ∧ d = c.setWidth 8 := by
  rw [← dataField_eq_setWidth]
  constructor
  · rintro rfl
    obtain ⟨-, -, hrow⟩ := Laws.Encoding.input d
    exact ⟨hrow, (fields_input d).2.symm⟩
  · rintro ⟨hrow, rfl⟩
    have hop : opField c = 0x1#4 := by
      rw [← opField_and_inputMask, hrow]
      rfl
    exact word_ext (by simp [hop]) (by simp)

/-! ### How many words are legal -/

/-- Every command once: the three with no operand, and `INPUT` of each byte. -/
def allCommands : List Instr :=
  .init :: .finalize :: .result :: (List.finRange 256).map fun d => .input (BitVec.ofFin d)

theorem mem_allCommands (i : Instr) : i ∈ allCommands := by
  cases i with
  | init => simp [allCommands]
  | input d => simp [allCommands]
  | finalize => simp [allCommands]
  | result => simp [allCommands]

theorem nodup_allCommands : allCommands.Nodup := by
  have hinj : Function.Injective fun d : Fin 256 => Instr.input (BitVec.ofFin d) := fun a b h => by
    simpa using h
  simp [allCommands, (List.nodup_finRange 256).map hinj]

theorem length_allCommands : allCommands.length = 259 := by
  simp [allCommands]

/-- The bits of a row are a command's exactly when they are those of its word. -/
theorem isSome_decodeTableWord_iff {n : Nat} (hn : n < 4096) :
    (decodeTableWord 12 n).isSome ↔ ∃ i, (encode i).toNat = n := by
  have hword (i : Instr) : decode (tableCommand 12 n) = .ok i ↔ (encode i).toNat = n := by
    rw [decode_eq_ok_iff, ← BitVec.toNat_inj, eq_comm]
    simp [tableCommand, Nat.mod_eq_of_lt hn]
  simp only [← hword, decodeTableWord]
  cases decode (tableCommand 12 n) <;> simp

/-- The legal words, in increasing order, are the words of the commands in another order. -/
theorem legalWords_perm_allCommands :
    ((List.range 4096).filter fun n => (decodeTableWord 12 n).isSome).Perm
      (allCommands.map fun i => (encode i).toNat) := by
  have hinj : Function.Injective fun i => (encode i).toNat := BitVec.toNat_injective.comp encode_injective
  rw [List.perm_ext_iff_of_nodup (List.nodup_range.filter _) (nodup_allCommands.map hinj)]
  intro n
  simp only [List.mem_filter, List.mem_range, List.mem_map, mem_allCommands, true_and]
  constructor
  · rintro ⟨hn, hsome⟩
    exact (isSome_decodeTableWord_iff hn).1 hsome
  · rintro ⟨i, rfl⟩
    have hn : (encode i).toNat < 4096 := (encode i).isLt
    exact ⟨hn, (isSome_decodeTableWord_iff hn).2 ⟨i, rfl⟩⟩

/-- Settles O3: a word decodes to a command exactly when it is the command's word, which is the row's match under its
mask; and the legal words are as many as the commands. -/
theorem wordsSelectTheirRowByMatchAndMask : Obligations.WordsSelectTheirRowByMatchAndMask := by
  refine ⟨fun c => ⟨decode_eq_ok_iff_fullMask, fun d => ?_, decode_eq_ok_iff_fullMask, decode_eq_ok_iff_fullMask⟩, ?_⟩
  · rw [decode_eq_ok_iff]
    exact eq_encode_input_iff c d
  · rw [legalWords_perm_allCommands.length_eq, List.length_map, length_allCommands]

end Sys2Proof.Encoding
end

section
/-! The operations of the word algebra on unsigned integers and on single bits, and a rotation as a movement of bits
(40_word_algebra.md R111 to R118). -/

namespace Sys2Proof.Machine

/-! ### The unsigned integer or the bits of each result -/

@[simp] theorem toNat_addW {w : Nat} (x y : BitVec w) : (addW x y).toNat = (x.toNat + y.toNat) % 2 ^ w :=
  BitVec.toNat_add x y

@[simp] theorem getLsbD_andW {w : Nat} (x y : BitVec w) (i : Nat) :
    (andW x y).getLsbD i = (x.getLsbD i && y.getLsbD i) :=
  BitVec.getLsbD_and

@[simp] theorem getLsbD_orW {w : Nat} (x y : BitVec w) (i : Nat) :
    (orW x y).getLsbD i = (x.getLsbD i || y.getLsbD i) :=
  BitVec.getLsbD_or

@[simp] theorem getLsbD_xorW {w : Nat} (x y : BitVec w) (i : Nat) :
    (xorW x y).getLsbD i = (x.getLsbD i ^^ y.getLsbD i) :=
  BitVec.getLsbD_xor

@[simp] theorem toNat_notW {w : Nat} (x : BitVec w) : (notW x).toNat = 2 ^ w - 1 - x.toNat :=
  BitVec.toNat_not

@[simp] theorem toNat_shl {w : Nat} (x : BitVec w) (n : Nat) : (shl x n).toNat = x.toNat * 2 ^ n % 2 ^ w :=
  BitVec.toNat_shiftLeft.trans (by rw [Nat.shiftLeft_eq])

@[simp] theorem toNat_shr {w : Nat} (x : BitVec w) (n : Nat) : (shr x n).toNat = x.toNat / 2 ^ n :=
  (BitVec.toNat_ushiftRight x n).trans (Nat.shiftRight_eq_div_pow x.toNat n)

theorem shl_eq_zero {w n : Nat} (x : BitVec w) (h : w ≤ n) : shl x n = 0#w :=
  BitVec.shiftLeft_eq_zero h

theorem shr_eq_zero {w n : Nat} (x : BitVec w) (h : w ≤ n) : shr x n = 0#w :=
  BitVec.ushiftRight_eq_zero h

/-- Settles O6: each operation is the library's, whose result is known as an unsigned integer or bit by bit. -/
theorem wordAlgebraIsUnsignedArithmetic : Obligations.WordAlgebraIsUnsignedArithmetic := fun _ x y =>
  ⟨toNat_addW x y, fun i _ => getLsbD_andW x y i, fun i _ => getLsbD_orW x y i, fun i _ => getLsbD_xorW x y i,
    toNat_notW x, toNat_shl x, toNat_shr x, fun _ h => ⟨shl_eq_zero x h, shr_eq_zero x h⟩⟩

/-! ### Where the bits of a rotation come from and go to -/

/-- Bit `j` of a rotation by `n` is the bit of the operand `n` places below, counted cyclically. -/
theorem getLsbD_rotl {w n j : Nat} (x : BitVec w) (h : n < w) (hj : j < w) :
    (rotl x n h).getLsbD j = x.getLsbD ((j + (w - n)) % w) := by
  rw [rotl_eq_rotateLeft, BitVec.getLsbD_rotateLeft_of_le h]
  by_cases hwrap : j < n
  · have hsource : (j + (w - n)) % w = w - n + j := by rw [Nat.add_comm, Nat.mod_eq_of_lt (by omega)]
    simp [hwrap, hsource]
  · have hsource : (j + (w - n)) % w = j - n := by
      rw [show j + (w - n) = j - n + w by omega, Nat.add_mod_right, Nat.mod_eq_of_lt (by omega)]
    simp [hwrap, hsource, hj]

/-- Bit `i` of the operand goes to bit `(i + n) mod w` (R118). -/
theorem getLsbD_rotl_add_mod {w n i : Nat} (x : BitVec w) (h : n < w) (hi : i < w) :
    (rotl x n h).getLsbD ((i + n) % w) = x.getLsbD i := by
  have hback : ((i + n) % w + (w - n)) % w = i := by
    rw [Nat.mod_add_mod, show i + n + (w - n) = i + w by omega, Nat.add_mod_right, Nat.mod_eq_of_lt hi]
  rw [getLsbD_rotl x h (Nat.mod_lt _ (by omega)), hback]

theorem rotl_zero_right {w : Nat} (x : BitVec w) (h : 0 < w) : rotl x 0 h = x := by
  apply BitVec.eq_of_getLsbD_eq
  intro i hi
  simpa [Nat.mod_eq_of_lt hi] using getLsbD_rotl_add_mod x h hi

theorem rotl_allOnes {w n : Nat} (h : n < w) : rotl (BitVec.allOnes w) n h = BitVec.allOnes w := by
  apply BitVec.eq_of_getLsbD_eq
  intro j hj
  have hsource : (j + (w - n)) % w < w := Nat.mod_lt _ (by omega)
  simp [getLsbD_rotl _ h hj, hsource, hj]

theorem rotl_zero_left {w n : Nat} (h : n < w) : rotl 0#w n h = 0#w := by
  apply BitVec.eq_of_getLsbD_eq
  intro j hj
  simp [getLsbD_rotl _ h hj]

/-! ### Terms that do not overlap -/

/-- Words with no 1 in the same place have the same `XOR` as `OR`. -/
theorem xor_eq_or_of_and_eq_zero {w : Nat} {x y : BitVec w} (h : x &&& y = 0#w) : x ^^^ y = x ||| y := by
  apply BitVec.eq_of_getLsbD_eq
  intro i _
  have hbit : (x.getLsbD i && y.getLsbD i) = false := by rw [← BitVec.getLsbD_and, h, BitVec.getLsbD_zero]
  have hjoin : ∀ a b : Bool, (a && b) = false → (a ^^ b) = (a || b) := by decide
  rw [BitVec.getLsbD_xor, BitVec.getLsbD_or, hjoin _ _ hbit]

/-- Settles O8: the bits move as `getLsbD_rotl` says; and the two terms never overlap, so that `OR`, `XOR` and `+` join
them equally. -/
theorem rotateLeftMovesEveryBit : Obligations.RotateLeftMovesEveryBit := by
  intro w n x h
  have hor : rotl x n h = shl x n ||| shr x (w - n) := rfl
  have hdisjoint := rotl_terms_disjoint x n h
  refine ⟨fun i hi => getLsbD_rotl_add_mod x h hi, hor, ?_, hdisjoint, ?_, ?_, rotl_allOnes h, rotl_zero_left h⟩
  · rintro rfl
    exact rotl_zero_right x h
  · rw [hor, xor_eq_or_of_and_eq_zero hdisjoint]
  · rw [hor, BitVec.add_eq_or_of_and_eq_zero _ _ hdisjoint]

end Sys2Proof.Machine
end

section
/-! The words of the schedule in the library's terms: the first sixteen from the block alone, the others from the words
before them (41_message_schedule.md R141, R142). -/

namespace Sys2Proof.Machine

/-! ### The two ranges of `W[t]` -/

theorem scheduleNext_of_lt {t : Nat} (b : Block) (w : List Word) (h : t < 16) :
    scheduleNext b w t = blockWord b ⟨t, h⟩ :=
  dif_pos h

theorem scheduleNext_of_le {t : Nat} (b : Block) (w : List Word) (h : 16 ≤ t) :
    scheduleNext b w t =
      (w.getD (t - 3) 0#32 ^^^ w.getD (t - 8) 0#32 ^^^ w.getD (t - 14) 0#32 ^^^ w.getD (t - 16) 0#32).rotateLeft 1 := by
  rw [scheduleNext, dif_neg (Nat.not_lt.2 h), rotl_eq_rotateLeft]
  rfl

/-- The first sixteen words are those of the block (R141). -/
theorem schedule_getElem_of_lt {i : Nat} (b : Block) (h : i < 16) :
    (schedule b)[i] = blockWord b ⟨i, h⟩ := by
  rw [schedule_getElem, scheduleNext_of_lt]

/-- Every other word follows from four words of the schedule before it (R142). -/
theorem schedule_getElem_of_le {t : Nat} (b : Block) (h16 : 16 ≤ t) (h : t < 80) :
    (schedule b)[t] =
      ((schedule b)[t - 3] ^^^ (schedule b)[t - 8] ^^^ (schedule b)[t - 14] ^^^ (schedule b)[t - 16]).rotateLeft 1 := by
  have hread (d : Nat) (hd : 0 < d) : (scheduleWords b t).getD (t - d) 0#32 = (schedule b)[t - d] :=
    scheduleWords_getD b t (t - d) (by omega) h.le
  rw [schedule_getElem b t h, scheduleNext_of_le b _ h16, hread 3 (by decide), hread 8 (by decide),
    hread 14 (by decide), hread 16 (by decide)]

/-- Settles O10: a word of the first sixteen is a word of the block, which is its four bytes one after the other; the
words after them meet the recurrence. -/
theorem scheduleFollowsItsRecurrence : Obligations.ScheduleFollowsItsRecurrence := by
  intro b
  refine ⟨fun i h => ?_, fun t h16 h => schedule_getElem_of_le b h16 h⟩
  rw [schedule_getElem_of_lt b h, blockWord_eq]

end Sys2Proof.Machine
end

section
/-! The round functions bit by bit, the four ranges of twenty steps, and the sum of one step (42_compression_round.md
R151, R153, R154, R157, R158). -/

namespace Sys2Proof.Machine

/-! ### The bits of the three round functions -/

theorem getLsbD_notW {w i : Nat} (x : BitVec w) (hi : i < w) : (notW x).getLsbD i = !x.getLsbD i := by
  simp [notW, hi]

/-- Where `x` has a 1, `Ch` takes the bit of `y`; where it has a 0, the bit of `z` (R154). -/
theorem getLsbD_ch {i : Nat} (x y z : Word) (hi : i < 32) :
    (ch x y z).getLsbD i = if x.getLsbD i then y.getLsbD i else z.getLsbD i := by
  rw [ch, getLsbD_xorW, getLsbD_andW, getLsbD_andW, getLsbD_notW x hi]
  cases x.getLsbD i with
  | false => simp
  | true => simp

@[simp] theorem getLsbD_parity (x y z : Word) (i : Nat) :
    (parity x y z).getLsbD i = (x.getLsbD i ^^ y.getLsbD i ^^ z.getLsbD i) := by
  simp [parity]

/-- `⊕` joins the three terms of `Maj` as `∨` does: when two terms are 1, all three are (R158). -/
@[simp] theorem getLsbD_maj (x y z : Word) (i : Nat) :
    (maj x y z).getLsbD i =
      ((x.getLsbD i && y.getLsbD i) || (x.getLsbD i && z.getLsbD i) || (y.getLsbD i && z.getLsbD i)) := by
  have hmajority : ∀ a b c : Bool, ((a && b) ^^ (a && c) ^^ (b && c)) = ((a && b) || (a && c) || (b && c)) := by decide
  rw [maj, getLsbD_xorW, getLsbD_xorW, getLsbD_andW, getLsbD_andW, getLsbD_andW, hmajority]

/-! ### Other ways to join the terms -/

/-- The two terms of `Ch` never have a 1 in the same place (R154). -/
theorem ch_terms_disjoint (x y z : Word) : (x &&& y) &&& (~~~x &&& z) = 0#32 := by
  apply BitVec.eq_of_getLsbD_eq
  intro i hi
  cases hx : x.getLsbD i with
  | false => simp [hx]
  | true => simp [hx]

theorem ch_eq_or (x y z : Word) : ch x y z = (x &&& y) ||| (~~~x &&& z) :=
  xor_eq_or_of_and_eq_zero (ch_terms_disjoint x y z)

theorem ch_eq_add (x y z : Word) : ch x y z = (x &&& y) + (~~~x &&& z) := by
  rw [ch_eq_or, BitVec.add_eq_or_of_and_eq_zero _ _ (ch_terms_disjoint x y z)]

theorem maj_eq_or (x y z : Word) : maj x y z = (x &&& y) ||| (x &&& z) ||| (y &&& z) := by
  apply BitVec.eq_of_getLsbD_eq
  intro i _
  simp only [getLsbD_maj, BitVec.getLsbD_or, BitVec.getLsbD_and]

/-- Where all three words have a 1, the terms of `Maj` are three ones: their sum carries. -/
theorem maj_one_ne_add : maj 1#32 1#32 1#32 ≠ (1#32 &&& 1#32) + (1#32 &&& 1#32) + (1#32 &&& 1#32) := by decide

/-- Settles O12: each function is known bit by bit; the terms of `Ch` are disjoint, so that `∨` and `+` join them like
`⊕`; and three words that share a 1 show that `+` does not join the terms of `Maj`. -/
theorem roundFunctionsWorkBitByBit : Obligations.RoundFunctionsWorkBitByBit :=
  ⟨fun x y z => ⟨fun _ hi => getLsbD_ch x y z hi, fun i _ => getLsbD_parity x y z i, fun i _ => getLsbD_maj x y z i,
    ch_eq_or x y z, ch_eq_add x y z, maj_eq_or x y z⟩, 1#32, 1#32, 1#32, maj_one_ne_add⟩

/-! ### The four ranges of steps -/

/-- The step index selects through `floor(t/20)` only (R151). -/
theorem selection_eq_of_div_eq {t u : Nat} (x y z : Word) (h : t / 20 = u / 20) :
    roundFunction t x y z = roundFunction u x y z ∧ roundConstant t = roundConstant u := by
  rw [roundFunction, roundFunction, roundConstant, roundConstant, h]
  exact ⟨rfl, rfl⟩

/-- Settles O13: every step selects as the first step of its range does. -/
theorem functionAndConstantFollowTheStepRange : Obligations.FunctionAndConstantFollowTheStepRange := by
  intro t x y z
  refine ⟨fun hle => ?_, fun hge hle => ?_, fun hge hle => ?_, fun hge hle => ?_⟩
  · exact selection_eq_of_div_eq (u := 0) x y z (by omega)
  · exact selection_eq_of_div_eq (u := 20) x y z (by omega)
  · exact selection_eq_of_div_eq (u := 40) x y z (by omega)
  · exact selection_eq_of_div_eq (u := 60) x y z (by omega)

/-! ### One step -/

/-- Four wrapping additions are one sum of five integers, taken modulo `2^32` once (R153). -/
theorem toNat_roundTemp (t : Nat) (wt : Word) (v : WorkVars) :
    (roundTemp t wt v).toNat =
      ((v.a.rotateLeft 5).toNat + (roundFunction t v.b v.c v.d).toNat + v.e.toNat + wt.toNat +
        (roundConstant t).toNat) % 2 ^ 32 := by
  simp only [roundTemp, toNat_addW, rotl_eq_rotateLeft, Nat.mod_add_mod]

/-- Settles O14: the new `a` is the sum, and the other four are the old ones moved along. -/
theorem stepComputesTheSourceFormula : Obligations.StepComputesTheSourceFormula := fun t wt v _ =>
  ⟨toNat_roundTemp t wt v, rfl, rotl_eq_rotateLeft v.b 30 (by decide), rfl, rfl⟩

end Sys2Proof.Machine
end

section
/-! The digest on the response port as bytes and as words, and what `FINALIZE` and `RESULT` answer
(43_hasher_commands.md R173 to R176, 30_encoding.md R89). -/

namespace Sys2Proof.Machine

/-! ### The bytes of the digest -/

/-- The bytes of a word, most significant first (R53(c)). -/
theorem wordBytes_getElem? (x : Word) {j : Nat} (hj : j < 4) :
    (wordBytes x)[j]? = some ((x >>> (24 - 8 * j)).setWidth 8) := by
  interval_cases j <;> rfl

/-- Byte `4i + j` of the digest is byte `j` of word `i` (R176). -/
theorem digestBytes_getElem? (h : DigestState) {i j : Nat} (hi : i < 5) (hj : j < 4) :
    (digestBytes h)[4 * i + j]? = some ((h[i] >>> (24 - 8 * j)).setWidth 8) := by
  have hword : (digestBytes h)[4 * i + j]? = (wordBytes h[i])[j]? := by
    interval_cases i <;> interval_cases j <;> rfl
  rw [hword, wordBytes_getElem? h[i] hj]

/-! ### The digest as it is assembled on the port -/

/-- One byte enters the digest port at the low end (R89). -/
def pushByte (acc : Digest) (b : Byte) : Digest :=
  orW (shl acc 8) (zext 160 b)

theorem portOfBytes_eq_foldl (bytes : List Byte) : portOfBytes bytes = bytes.foldl pushByte 0#160 := rfl

theorem getLsbD_pushByte (acc : Digest) (b : Byte) {n : Nat} (hn : n < 160) :
    (pushByte acc b).getLsbD n = if n < 8 then b.getLsbD n else acc.getLsbD (n - 8) := by
  rw [pushByte, getLsbD_orW]
  by_cases h8 : n < 8
  · simp [shl, zext, h8, hn]
  · have hhigh : b.getLsbD n = false := b.getLsbD_of_ge n (by omega)
    simp [shl, zext, h8, hn, hhigh, -BitVec.getLsbD_eq_getElem]

/-- Bit `k` of an extracted field is the bit of the word `lo` places above (R119). -/
theorem getLsbD_extract {w hi lo k n : Nat} (x : BitVec w) {h : lo ≤ hi ∧ hi < w} (hk : k ≤ hi - lo)
    (hn : lo + k = n) : (extract x hi lo h).getLsbD k = x.getLsbD n := by
  rw [extract_eq, BitVec.getLsbD_setWidth, BitVec.getLsbD_ushiftRight, hn]
  simp [Nat.lt_succ_of_le hk]

/-- The four bytes of a word, pushed one after the other, enter the port as that word. -/
theorem getLsbD_foldl_wordBytes (acc : Digest) (x : Word) {n : Nat} (hn : n < 160) :
    ((wordBytes x).foldl pushByte acc).getLsbD n = if n < 32 then x.getLsbD n else acc.getLsbD (n - 32) := by
  simp only [wordBytes, List.foldl_cons, List.foldl_nil]
  rw [getLsbD_pushByte _ _ hn, getLsbD_pushByte _ _ (by omega), getLsbD_pushByte _ _ (by omega),
    getLsbD_pushByte _ _ (by omega)]
  by_cases h32 : n < 32
  · rw [if_pos h32, if_pos (show n - 8 - 8 - 8 < 8 by omega)]
    split_ifs <;> exact getLsbD_extract x (by omega) (by omega)
  · rw [if_neg h32, if_neg (by omega), if_neg (by omega), if_neg (by omega), if_neg (by omega)]
    simp only [Nat.sub_sub]

/-- The bits of the digest port, from the low end: word 4 first, word 0 last (R89, R176). -/
theorem getLsbD_extractDigest (h : DigestState) {n : Nat} (hn : n < 160) :
    (extractDigest h).getLsbD n =
      if n < 32 then h[4].getLsbD n else if n - 32 < 32 then h[3].getLsbD (n - 32)
      else if n - 32 - 32 < 32 then h[2].getLsbD (n - 32 - 32)
      else if n - 32 - 32 - 32 < 32 then h[1].getLsbD (n - 32 - 32 - 32)
      else h[0].getLsbD (n - 32 - 32 - 32 - 32) := by
  simp only [extractDigest, digestBytes, portOfBytes_eq_foldl, List.foldl_append]
  rw [getLsbD_foldl_wordBytes _ _ hn, getLsbD_foldl_wordBytes _ _ (by omega), getLsbD_foldl_wordBytes _ _ (by omega),
    getLsbD_foldl_wordBytes _ _ (by omega), getLsbD_foldl_wordBytes _ _ (by omega),
    if_pos (show n - 32 - 32 - 32 - 32 < 32 by omega)]

/-- The digest on the port is the five words one after the other (R89, R176). -/
theorem extractDigest_eq_append (h : DigestState) :
    extractDigest h = h[0] ++ h[1] ++ h[2] ++ h[3] ++ h[4] := by
  apply BitVec.eq_of_getLsbD_eq
  intro n hn
  rw [getLsbD_extractDigest h hn]
  simp only [BitVec.getLsbD_append]

/-- Word `i` of the digest state stands on the port with `4 - i` words below it (R89). -/
theorem getLsbD_extractDigest_word (h : DigestState) {i k : Nat} (hi : i < 5) (hk : k < 32) :
    (extractDigest h).getLsbD (32 * (4 - i) + k) = h[i].getLsbD k := by
  rw [getLsbD_extractDigest h (by omega)]
  interval_cases i <;> grind

/-- Byte `k` of the digest port, counted from the top, is byte `k` of the digest (R89). -/
theorem digestBytes_getElem?_eq_port (h : DigestState) {k : Nat} (hk : k < 20) :
    (digestBytes h)[k]? = some ((extractDigest h >>> (152 - 8 * k)).setWidth 8) := by
  have hi : k / 4 < 5 := by omega
  have hbytes := digestBytes_getElem? h hi (Nat.mod_lt k (by decide))
  rw [Nat.div_add_mod] at hbytes
  rw [hbytes, Option.some_inj]
  apply BitVec.eq_of_getLsbD_eq
  intro b hb
  have hword := getLsbD_extractDigest_word h hi (k := 24 - 8 * (k % 4) + b) (by omega)
  rw [show 32 * (4 - k / 4) + (24 - 8 * (k % 4) + b) = 152 - 8 * k + b by omega] at hword
  simp only [BitVec.getLsbD_setWidth, BitVec.getLsbD_ushiftRight, hword]

/-- Settles O20: the bytes are those of the words in order, and the port joins them to the words again. -/
theorem digestIsTheWordsBigEndian : Obligations.DigestIsTheWordsBigEndian := fun h =>
  ⟨rfl, fun _ hi _ hj => digestBytes_getElem? h hi hj, fun _ hk => digestBytes_getElem?_eq_port h hk,
    extractDigest_eq_append h⟩

/-! ### The commands that close a message -/

/-- Settles O25: `FINALIZE` answers `OK` from whatever `DO_FINALIZE` leaves, on a closed and on an open message. -/
theorem finalizeClosesTheMessage : Obligations.FinalizeClosesTheMessage := by
  refine ⟨by decide, fun s => ⟨fun hd => execFinalize_ok (s.doFinalize_closed hd), fun hopen hc hw => ?_⟩⟩
  obtain ⟨u, hu, hframe, hblock, hhigh, -⟩ := s.doFinalize_open hopen hc hw
  exact ⟨u.respond ⟨.ok, none⟩, execFinalize_ok hu, congrArg (State.respond · _) hframe, hblock, hhigh⟩

/-- `RESULT` answers what `DO_FINALIZE` answers, with the five words of `H` one after the other (R175). -/
theorem execResult_append {s t : State} (h : s.doFinalize = .ok t) :
    execResult s = .next (t.respond ⟨.ok, some (t.h[0] ++ t.h[1] ++ t.h[2] ++ t.h[3] ++ t.h[4])⟩) := by
  rw [execResult_ok h, extractDigest_eq_append]

/-- Settles O26: `RESULT` is the same finalization, answered with the five words that it leaves in `H`. -/
theorem resultPresentsTheDigest : Obligations.ResultPresentsTheDigest := by
  refine ⟨by decide, fun s => ⟨fun hd => execResult_append (s.doFinalize_closed hd), fun hopen hc hw => ?_⟩⟩
  obtain ⟨u, hu, hframe, hblock, hhigh, -⟩ := s.doFinalize_open hopen hc hw
  exact ⟨u.respond _, execResult_append hu, congrArg (State.respond · _) hframe, hblock, hhigh⟩

end Sys2Proof.Machine
end

section
/-! The errors of the engine (60_exceptions.md): which words are answered `IllegalCommand`, when `INPUT` is answered
`AlreadyFinalized`, and that an answer other than `OK` is added to a state in which only the accepted word is gone from
the command port. -/

namespace Sys2Proof

/-- `OP` as a number (R81). -/
theorem opField_toNat (c : CmdWord) : (opField c).toNat = c.toNat / 256 := by
  have hc : c.toNat < 2 ^ 12 := c.isLt
  simp only [opField, BitVec.extractLsb_toNat, Nat.shiftRight_eq_div_pow]
  omega

/-- `DATA` as a number (R81). -/
theorem dataField_toNat (c : CmdWord) : (dataField c).toNat = c.toNat % 256 := by
  simp [dataField, BitVec.extractLsb_toNat]

/-- A word with a reserved `OP`, or with non-zero `DATA` where none is allowed, does not decode: each of the four
decodings fixes an `OP` that is not reserved, and those without operand fix `DATA` to zero (R84, R90). -/
theorem decode_error_of_illegal {c : CmdWord}
    (h : 4 ≤ c.toNat / 256 ∨ ((c.toNat / 256 = 0 ∨ c.toNat / 256 = 2 ∨ c.toNat / 256 = 3) ∧ c.toNat % 256 ≠ 0)) :
    ∃ e, decode c = .error e := by
  rw [← opField_toNat, ← dataField_toNat] at h
  obtain ⟨ho, -⟩ | ⟨ho, hd, -⟩ | ⟨ho, hd, -⟩ | ⟨ho, hd, -⟩ | ⟨-, -, -, he⟩ | ⟨-, he⟩ := decode_cases c
  · simp [ho] at h
  · simp [ho, hd] at h
  · simp [ho, hd] at h
  · simp [ho, hd] at h
  · exact ⟨_, he⟩
  · exact ⟨_, he⟩

end Sys2Proof

namespace Sys2Proof.Machine

/-- Settles O5: such a word does not decode, and then the step is the error response whatever the state. -/
theorem illegalWordIsAnsweredWithNoStateChange : Obligations.IllegalWordIsAnsweredWithNoStateChange := by
  intro s c rest hport hillegal
  obtain ⟨e, he⟩ := decode_error_of_illegal hillegal
  exact ⟨step_illegal hport he, rfl⟩

/-- Settles O24: on an open message `INPUT` answers `OK`; on a closed one it answers `AlreadyFinalized` and leaves the
message closed, so the next `INPUT` is answered the same. -/
theorem inputAfterFinalizationIsRefused : Obligations.InputAfterFinalizationIsRefused := by
  intro d s t hexec
  obtain ⟨hclosed, rfl⟩ | ⟨hopen, -, rfl⟩ | ⟨hopen, -, -, rfl⟩ := execInput_inv hexec
  · exact ⟨by simp [hclosed], fun _ => ⟨rfl, rfl, fun d' => execInput_closed d' _ hclosed⟩⟩
  · simp [hopen]
  · simp [hopen]

/-- `DO_FINALIZE` gives no response of its own (R173). -/
theorem State.doFinalize_responses {s u : State} (h : s.doFinalize = .ok u) : u.responses = s.responses := by
  obtain ⟨-, rfl⟩ | ⟨-, -, -, hframe, -⟩ := State.doFinalize_cases h
  · rfl
  · rw [hframe]

/-- A command adds one response to a state `u` that holds those given before. It is `OK`, or it carries no digest and
`u` is the state before the command. -/
def AnswersFrom (s t : State) : Prop :=
  ∃ (u : State) (r : Response), t = u.respond r ∧ u.responses = s.responses ∧
    (r.status = .ok ∨ (u = s ∧ r.digest = none))

/-- Every command that completes answers so: the only error is `INPUT`'s on a closed message (R200, R202). -/
theorem exec_answersFrom {i : Instr} {s t : State} (h : exec i s = .next t) : AnswersFrom s t := by
  cases i with
  | init =>
    cases (execInit_eq s).symm.trans h
    exact ⟨_, _, rfl, rfl, .inl rfl⟩
  | input d =>
    obtain ⟨-, rfl⟩ | ⟨-, -, rfl⟩ | ⟨-, -, -, rfl⟩ := execInput_inv h
    · exact ⟨s, _, rfl, rfl, .inr ⟨rfl, rfl⟩⟩
    · exact ⟨_, _, rfl, rfl, .inl rfl⟩
    · exact ⟨_, _, rfl, rfl, .inl rfl⟩
  | finalize =>
    obtain ⟨u, hu, rfl⟩ := execFinalize_inv h
    exact ⟨u, _, rfl, State.doFinalize_responses hu, .inl rfl⟩
  | result =>
    obtain ⟨u, hu, rfl⟩ := execResult_inv h
    exact ⟨u, _, rfl, State.doFinalize_responses hu, .inl rfl⟩

/-- A step that accepts a word answers so, from the state with the word taken off the port: a legal word by its command,
an illegal one by the error response (R206, R208). -/
theorem step_answersFrom {s t : State} {w : CmdWord} {rest : List HostEvent} (hport : s.port = .command w :: rest)
    (h : step s = .next t) : AnswersFrom (s.setPort rest) t := by
  cases hdec : decode w with
  | ok i =>
    rw [step_command hport hdec] at h
    exact exec_answersFrom h
  | error e =>
    cases (step_illegal hport hdec).symm.trans h
    exact ⟨_, _, rfl, rfl, .inr ⟨rfl, rfl⟩⟩

/-- Two ways to write the responses after one more answer name the same answer. -/
theorem State.respond_responses_eq_append_iff {s u : State} {r r' : Response} (h : u.responses = s.responses) :
    (u.respond r').responses = s.responses ++ [r] ↔ r' = r := by
  simp [h]

/-- Settles O30: the response of the step is the one it added, so when it is not `OK` it was added to the state before
the command. -/
theorem errorResponsesChangeNothing : Obligations.ErrorResponsesChangeNothing := by
  intro s t w rest r hport hstep hresp herror
  obtain ⟨u, r', rfl, hkept, hanswer⟩ := step_answersFrom hport hstep
  obtain rfl : r' = r := (State.respond_responses_eq_append_iff hkept).1 hresp
  obtain hok | ⟨rfl, hdigest⟩ := hanswer
  · exact absurd hok herror
  · exact ⟨rfl, by simp [Response.dvalid, hdigest]⟩

end Sys2Proof.Machine
end

section
/-! The remaining statements about the encoding: the round trip, and which words are illegal and how many there are
(30_encoding.md R81 to R90). -/

namespace Sys2Proof.Encoding

/-- Settles O2: the decoder inverts the encoder, and only the word of a command decodes to it. -/
theorem decodingAndEncodingAgree : Obligations.DecodingAndEncodingAgree :=
  ⟨fun i _ => decode_encode i, fun _ _ => encode_of_decode_eq_ok⟩

/-- Settles O1: each of the eight words evaluates. -/
theorem sampleCommandWordsDecode : Obligations.SampleCommandWordsDecode := by
  refine ⟨?_, ?_, ?_, ?_, ?_, ?_, ?_, ?_⟩ <;> decide

/-! ### Illegal words -/

/-- Twelve bits of a row are the whole word. -/
theorem tableCommand_twelve (n : Nat) : tableCommand 12 n = BitVec.ofNat 12 n := by
  simp [tableCommand, ← BitVec.toNat_inj]

/-- A word whose `OP` is not reserved, and whose `DATA` is zero where it must be, is the word of a command. -/
theorem not_decode_error_of_legal {c : CmdWord}
    (h : ¬ (4 ≤ c.toNat / 256 ∨
      ((c.toNat / 256 = 0 ∨ c.toNat / 256 = 2 ∨ c.toNat / 256 = 3) ∧ c.toNat % 256 ≠ 0))) :
    ¬ ∃ e, decode c = .error e := by
  rw [← opField_toNat, ← dataField_toNat] at h
  obtain ⟨-, hc⟩ | ⟨-, -, hc⟩ | ⟨-, -, hc⟩ | ⟨-, -, hc⟩ | ⟨ho, ho1, hd, -⟩ | ⟨ho, -⟩ := decode_cases c
  · simp [hc]
  · simp [hc]
  · simp [hc]
  · simp [hc]
  · have hop : (opField c).toNat ≠ 1 := fun h1 => ho1 (BitVec.eq_of_toNat_eq h1)
    have hdata : (dataField c).toNat ≠ 0 := fun h0 => hd (BitVec.eq_of_toNat_eq h0)
    omega
  · omega

/-- The words rejected for the operation code are those from `0x400` up (R84(a)). -/
theorem decode_eq_reservedOpcode_iff (c : CmdWord) :
    decode c = .error .reservedOpcode ↔ 1024 ≤ c.toNat := by
  have hop : 1024 ≤ c.toNat ↔ 4 ≤ (opField c).toNat := by
    rw [opField_toNat]
    omega
  rw [hop]
  obtain ⟨ho, hc⟩ | ⟨ho, -, hc⟩ | ⟨ho, -, hc⟩ | ⟨ho, -, hc⟩ | ⟨ho, -, -, hc⟩ | ⟨ho, hc⟩ := decode_cases c
  · simp [hc, ho]
  · simp [hc, ho]
  · simp [hc, ho]
  · simp [hc, ho]
  · simp [hc, Nat.lt_succ_of_le ho]
  · simp [hc, ho]

/-- Of the numbers below `a + b`, those from `a` up are `b` many. -/
theorem length_filter_le_range (a b : Nat) : ((List.range (a + b)).filter fun n => decide (a ≤ n)).length = b := by
  rw [List.range_add, List.filter_append, List.filter_eq_nil_iff.2, List.filter_eq_self.2]
  · simp
  · simp
  · simp

/-- There are as many of them as words from `0x400` to `0xFFF`. -/
theorem length_reservedOpcodes :
    ((List.range 4096).filter fun n => decode (BitVec.ofNat 12 n) == .error .reservedOpcode).length = 3072 := by
  have hpred : ∀ n ∈ List.range 4096,
      (decode (BitVec.ofNat 12 n) == .error .reservedOpcode) = decide (1024 ≤ n) := by
    intro n hn
    rw [Bool.eq_iff_iff]
    simp [decode_eq_reservedOpcode_iff, Nat.mod_eq_of_lt (List.mem_range.1 hn)]
  rw [List.filter_congr hpred]
  exact length_filter_le_range 1024 3072

/-- Every word decodes, or is rejected for one of the two reasons. -/
theorem length_legal_add_illegal (l : List Nat) :
    (l.filter fun n => (decodeTableWord 12 n).isSome).length +
        (l.filter fun n => decode (BitVec.ofNat 12 n) == .error .reservedOpcode).length +
        (l.filter fun n => decode (BitVec.ofNat 12 n) == .error .nonzeroData).length = l.length := by
  induction l with
  | nil => rfl
  | cons n l ih =>
    simp only [List.filter_cons, decodeTableWord, tableCommand_twelve] at ih ⊢
    cases decode (BitVec.ofNat 12 n) with
    | ok i => simp; omega
    | error e =>
      cases e with
      | reservedOpcode => simp; omega
      | nonzeroData => simp; omega

/-- Settles O4: the rejected words are those of the two kinds; the words from `0x400` up have a reserved `OP`, and of
the other 1024 all but the 259 words of the commands have non-zero `DATA`. -/
theorem illegalWordsAreExactlyTheUnlistedOnes : Obligations.IllegalWordsAreExactlyTheUnlistedOnes := by
  have hlegal := wordsSelectTheirRowByMatchAndMask.2
  have htotal := length_legal_add_illegal (List.range 4096)
  rw [hlegal, length_reservedOpcodes, List.length_range] at htotal
  refine ⟨fun c => ⟨fun h => ?_, decode_error_of_illegal⟩, length_reservedOpcodes, by omega⟩
  by_contra hnot
  exact not_decode_error_of_legal hnot h

end Sys2Proof.Encoding
end

section
/-! The remaining laws of the word algebra, the schedule as a linear map, and one compression on the state
(40_word_algebra.md R119, R120, R124, 41_message_schedule.md R142, 42_compression_round.md R150 to R160). -/

namespace Sys2Proof.Machine

/-! ### Fields, extensions and rotations -/

theorem toNat_extract {w hi lo : Nat} (x : BitVec w) (h : lo ≤ hi ∧ hi < w) :
    (extract x hi lo h).toNat = x.toNat / 2 ^ lo % 2 ^ (hi - lo + 1) := by
  rw [extract_eq, BitVec.toNat_setWidth, BitVec.toNat_ushiftRight, Nat.shiftRight_eq_div_pow]

theorem toNat_zext {w n : Nat} (x : BitVec w) (h : w ≤ n) : (zext n x h).toNat = x.toNat :=
  BitVec.toNat_setWidth_of_le h

/-- Settles O7: both are known as unsigned integers wherever they are defined. -/
theorem extractAndZeroExtendAreUnsigned : Obligations.ExtractAndZeroExtendAreUnsigned := fun _ x =>
  ⟨fun _ _ h => toNat_extract x h, fun _ h => toNat_zext x h⟩

theorem rotl_xorW {w n : Nat} (x y : BitVec w) (h : n < w) :
    rotl (xorW x y) n h = xorW (rotl x n h) (rotl y n h) := by
  apply BitVec.eq_of_getLsbD_eq
  intro i hi
  simp only [getLsbD_rotl _ h hi, getLsbD_xorW]

/-- Two rotations move bit `i` to bit `(i + m + n) mod w`, as one by the sum does. -/
theorem rotl_rotl {w m n : Nat} (x : BitVec w) (hm : m < w) (hn : n < w) (hmn : (m + n) % w < w) :
    rotl (rotl x m hm) n hn = rotl x ((m + n) % w) hmn := by
  apply BitVec.eq_of_getLsbD_eq
  intro j hj
  obtain ⟨i, hi, rfl⟩ : ∃ i, i < w ∧ (i + (m + n) % w) % w = j :=
    ⟨(j + (w - (m + n) % w)) % w, Nat.mod_lt _ (by omega), by
      rw [Nat.mod_add_mod, show j + (w - (m + n) % w) + (m + n) % w = j + w by omega, Nat.add_mod_right,
        Nat.mod_eq_of_lt hj]⟩
  have htwo : (i + (m + n) % w) % w = ((i + m) % w + n) % w := by
    rw [Nat.add_mod_mod, Nat.mod_add_mod, Nat.add_assoc]
  rw [getLsbD_rotl_add_mod x hmn hi, htwo, getLsbD_rotl_add_mod _ hn (Nat.mod_lt _ (by omega)),
    getLsbD_rotl_add_mod x hm hi]

/-- Settles O9: both laws hold bit by bit. -/
theorem rotationLaws : Obligations.RotationLaws := fun _ _ _ x y hm hn =>
  ⟨rotl_xorW x y hn, rotl_rotl x hm hn _⟩

/-! ### The schedule is linear over bits -/

/-- The `XOR` of two blocks, byte by byte. -/
def xorBlock (x y : Block) : Block :=
  Vector.ofFn fun i => x[i.val] ^^^ y[i.val]

@[simp] theorem getElem_xorBlock (x y : Block) {i : Nat} (h : i < 64) : (xorBlock x y)[i] = x[i] ^^^ y[i] := by
  simp [xorBlock]

theorem blockWord_xorBlock (x y : Block) (i : Fin 16) :
    blockWord (xorBlock x y) i = blockWord x i ^^^ blockWord y i := by
  simp only [blockWord_eq, getElem_xorBlock, ← BitVec.xor_append]

theorem rotateLeft_one_xor (x y : Word) : (x ^^^ y).rotateLeft 1 = x.rotateLeft 1 ^^^ y.rotateLeft 1 := by
  have h := rotl_xorW x y (show 1 < 32 by decide)
  rwa [rotl_eq_rotateLeft, rotl_eq_rotateLeft, rotl_eq_rotateLeft] at h

theorem xor_xor_four (a b c d a' b' c' d' : Word) :
    (a ^^^ a') ^^^ (b ^^^ b') ^^^ (c ^^^ c') ^^^ (d ^^^ d') = (a ^^^ b ^^^ c ^^^ d) ^^^ (a' ^^^ b' ^^^ c' ^^^ d') := by
  ac_rfl

/-- Each word of the schedule is linear in the block, since it is a word of the block or made of earlier words by
`XOR` and a rotation. -/
theorem schedule_xorBlock (x y : Block) (t : Nat) (h : t < 80) :
    (schedule (xorBlock x y))[t] = (schedule x)[t] ^^^ (schedule y)[t] := by
  induction t using Nat.strong_induction_on with
  | _ t ih =>
    by_cases h16 : t < 16
    · simp only [schedule_getElem_of_lt _ h16, blockWord_xorBlock]
    · have hle : 16 ≤ t := Nat.le_of_not_lt h16
      rw [schedule_getElem_of_le _ hle h, schedule_getElem_of_le _ hle h, schedule_getElem_of_le _ hle h,
        ih (t - 3) (by omega) (by omega), ih (t - 8) (by omega) (by omega), ih (t - 14) (by omega) (by omega),
        ih (t - 16) (by omega) (by omega), ← rotateLeft_one_xor]
      exact congrArg (·.rotateLeft 1) (xor_xor_four _ _ _ _ _ _ _ _)

/-- The all-zero block is its own `XOR` with itself. -/
theorem xorBlock_self_zero :
    xorBlock (Vector.replicate 64 0x00#8) (Vector.replicate 64 0x00#8) = Vector.replicate 64 0x00#8 := by
  ext i hi
  simp

/-- Settles O11: the words are linear in the block; so the schedule of zero, which is `0 ⊕ 0`, is `w ⊕ w = 0`. -/
theorem scheduleIsLinearOverBits : Obligations.ScheduleIsLinearOverBits := by
  refine ⟨schedule_xorBlock, fun t h => ?_⟩
  rw [← xorBlock_self_zero, schedule_xorBlock, BitVec.xor_self]

/-! ### One compression -/

theorem roundSteps_succ (w : Schedule) (v : WorkVars) {t : Nat} (h : t < 80) :
    roundSteps w v (t + 1) = roundStep t w[t] (roundSteps w v t) := by
  simp [roundSteps, Vector.getD, h]

/-- Settles O15: the sequence is `roundSteps` on the block's schedule. -/
theorem compressionIsEightyStepsAndFeedForward : Obligations.CompressionIsEightyStepsAndFeedForward := fun h b =>
  ⟨roundSteps (schedule b) (loadVars h), rfl, fun _ ht => roundSteps_succ _ _ ht, rfl⟩

/-- Settles O16: `COMPRESS` writes `H`, `CUR` and the ephemeral registers. -/
theorem compressWritesOnlyTheDigestStateAndTheCursor : Obligations.CompressWritesOnlyTheDigestStateAndTheCursor :=
  fun s b h => ⟨_, s.compress_block b h, rfl⟩

/-- Settles O17: on a full buffer `COMPRESS` answers, and a position without a value stops it. -/
theorem compressStopsOnlyOnAnUnwrittenByte : Obligations.CompressStopsOnlyOnAnUnwrittenByte := by
  intro s
  constructor
  · rintro ⟨f, hf⟩
    by_contra hnone
    have hfull : ∀ p, p < 64 → (s.buf.read p).isSome = true := fun p hp =>
      Option.isSome_iff_ne_none.2 fun h => hnone ⟨p, hp, h⟩
    rw [s.compress_ok hfull] at hf
    cases hf
  · rintro ⟨p, hp, hread⟩
    obtain ⟨q, hq⟩ := s.compress_error hp hread
    exact ⟨_, hq⟩

/-! ### The block buffer and the length field -/

/-- Settles O18: the laws of the buffer. -/
theorem bufferReadsBackTheLastWrite : Obligations.BufferReadsBackTheLastWrite := by
  refine ⟨fun m a v b => ?_, fun m a v hm ha => Memory.wf_write v hm ha⟩
  rw [Memory.read_write]
  simp only [eq_comm]

/-- Byte `i` of the length field (R53(b)). -/
theorem lengthBytes_getElem?_shift (len : LenWord) {i : Nat} (hi : i < 8) :
    (lengthBytes len)[i]? = some ((len >>> (56 - 8 * i)).setWidth 8) := by
  have h := lengthBytes_getElem? len (p := 56 + i) (by omega) (by omega)
  rwa [Nat.add_sub_cancel_left, show 8 * (63 - (56 + i)) = 56 - 8 * i by omega] at h

/-- The byte that starts at bit `k`, joined below the bits above it. -/
theorem div_mul_add_div_mod (n k : Nat) : n / 2 ^ (k + 8) * 256 + n / 2 ^ k % 2 ^ 8 = n / 2 ^ k := by
  rw [Nat.pow_add, ← Nat.div_div_eq_div_mul]
  exact Nat.div_add_mod' (n / 2 ^ k) 256

/-- The bytes of the length field, most significant first, are `LEN`: each joins the next eight bits below those before
it. -/
theorem foldl_lengthBytes (len : LenWord) :
    (lengthBytes len).foldl (fun acc b => acc * 256 + b.toNat) 0 = len.toNat := by
  have htop := div_mul_add_div_mod len.toNat 56
  rw [Nat.div_eq_of_lt len.isLt] at htop
  simp only [lengthBytes, List.foldl_cons, List.foldl_nil, toNat_extract]
  rw [htop, div_mul_add_div_mod _ 48, div_mul_add_div_mod _ 40, div_mul_add_div_mod _ 32,
    div_mul_add_div_mod _ 24, div_mul_add_div_mod _ 16, div_mul_add_div_mod _ 8, div_mul_add_div_mod _ 0, pow_zero,
    Nat.div_one]

/-- Settles O19: each byte is the eight bits at its place, and joined they are `LEN` again. -/
theorem lengthFieldIsBigEndian : Obligations.LengthFieldIsBigEndian := fun len =>
  ⟨rfl, fun _ hi => lengthBytes_getElem?_shift len hi, foldl_lengthBytes len⟩

end Sys2Proof.Machine
end

section
/-! What a command does to the state before it answers, told apart from its answer; and from the few cases there are,
what every command changes, keeps and gives (43_hasher_commands.md R171 to R177). -/

namespace Sys2Proof.Machine

/-! ### A command is an effect and an answer -/

/-- What command `i` does to the state before it answers. -/
def effect : Instr → State → Except Fault State
  | .init, s => .ok s.loadInitial
  | .input d, s => if s.computed then .ok s else s.feedByte d
  | .finalize, s | .result, s => s.doFinalize

/-- The answer of command `i`, given in state `s`, whose effect leaves `u`. -/
def answer (i : Instr) (s u : State) : Response :=
  match i with
  | .input _ => ⟨if s.computed then .alreadyFinalized else .ok, none⟩
  | .result => ⟨.ok, some (extractDigest u.h)⟩
  | .init | .finalize => ⟨.ok, none⟩

/-- The outcome of command `i` in state `s` from what its effect answers. -/
def answered (i : Instr) (s : State) : Except Fault State → Host.Outcome State Fault Refusal
  | .ok u => .next (u.respond (answer i s u))
  | .error f => .fault f

theorem exec_eq_answered (i : Instr) (s : State) : exec i s = answered i s (effect i s) := by
  cases i with
  | init => rfl
  | input d =>
    cases hc : s.computed with
    | true => simp [exec, execInput_closed d s hc, effect, answer, answered, hc]
    | false =>
      simp only [exec, execInput, State.finalized_eq, effect, hc]
      cases s.feedByte d with
      | ok u => simp [outcome, answered, answer, hc, bind, Except.bind, pure, Except.pure]
      | error f => rfl
  | finalize =>
    simp only [exec, execFinalize, effect]
    cases s.doFinalize <;> rfl
  | result =>
    simp only [exec, execResult, effect]
    cases s.doFinalize <;> rfl

theorem exec_of_effect_ok {i : Instr} {s u : State} (h : effect i s = .ok u) :
    exec i s = .next (u.respond (answer i s u)) := by
  rw [exec_eq_answered, h, answered]

theorem exec_fault_iff {i : Instr} {s : State} {f : Fault} : exec i s = .fault f ↔ effect i s = .error f := by
  rw [exec_eq_answered]
  cases effect i s <;> simp [answered]

theorem exec_next_inv {i : Instr} {s t : State} (h : exec i s = .next t) :
    ∃ u, effect i s = .ok u ∧ t = u.respond (answer i s u) := by
  rw [exec_eq_answered] at h
  cases he : effect i s with
  | ok u =>
    rw [he] at h
    cases h
    exact ⟨u, rfl, rfl⟩
  | error f =>
    rw [he] at h
    cases h

theorem goesOn_exec_iff (i : Instr) (s : State) : goesOn (exec i s) ↔ ∃ u, effect i s = .ok u := by
  constructor
  · rintro ⟨t, ht⟩
    obtain ⟨u, hu, -⟩ := exec_next_inv ht
    exact ⟨u, hu⟩
  · rintro ⟨u, hu⟩
    exact ⟨_, exec_of_effect_ok hu⟩

/-! ### When each effect happens -/

section
variable {s : State} {i : Instr} {d : Byte}

/-- On a closed message every command but `INIT` does nothing. -/
theorem effect_closed (hi : i ≠ .init) (h : s.computed = true) : effect i s = .ok s := by
  cases i with
  | init => exact absurd rfl hi
  | input d => simp [effect, h]
  | finalize => exact s.doFinalize_closed h
  | result => exact s.doFinalize_closed h

theorem effect_input_open (h : s.computed = false) : effect (.input d) s = s.feedByte d := by
  simp [effect, h]

theorem effect_of_closing (hi : i = .finalize ∨ i = .result) : effect i s = s.doFinalize := by
  obtain rfl | rfl := hi <;> rfl

end

/-! ### The cases of an effect -/

/-- `u` is what a finalization leaves of the open message in `s` (R173, R174). -/
structure State.ClosesTo (s u : State) : Prop where
  frame : u = { s with h := s.closedH, buf := u.buf, cur := 0#7, len := 0#64, computed := true, eph := u.eph,
                       epoch := u.epoch }
  block : ∀ p (hp : p < 64), u.buf.read p = some s.lastBlock[p]
  high : ∀ p, 64 ≤ p → u.buf.read p = s.buf.read p
  wf : s.buf.wf = true → u.buf.wf = true

/-- The five things a command can do (R177). -/
inductive Does (s : State) : Instr → State → Prop
  | init : Does s .init s.loadInitial
  | nothing {i : Instr} (hi : i ≠ .init) (hclosed : s.computed = true) : Does s i s
  | byte {d : Byte} (hopen : s.computed = false) (hcur : s.cur.toNat < 63) : Does s (.input d) (afterByte s d)
  | block {d : Byte} (hopen : s.computed = false) (hcur : s.cur.toNat = 63) (hw : s.Written) :
      Does s (.input d) (afterFullBlock s d (filledBlock s d))
  | close {i : Instr} {u : State} (hi : i = .finalize ∨ i = .result) (hopen : s.computed = false)
      (hcur : s.cur.toNat ≤ 63) (hw : s.Written) (hu : s.ClosesTo u) : Does s i u

/-- A finalization of an open message completes when the cursor is in range and the bytes below it are written. -/
theorem effect_close_open {i : Instr} {s : State} (hi : i = .finalize ∨ i = .result) (h : s.computed = false)
    (hcur : s.cur.toNat ≤ 63) (hw : s.Written) : ∃ u, effect i s = .ok u ∧ s.ClosesTo u := by
  obtain ⟨u, hu, hframe, hblock, hhigh, hwf⟩ := s.doFinalize_open h hcur hw
  exact ⟨u, (effect_of_closing hi).trans hu, hframe, hblock, hhigh, hwf⟩

theorem does_of_doFinalize {i : Instr} {s u : State} (hi : i = .finalize ∨ i = .result) (h : s.doFinalize = .ok u) :
    Does s i u := by
  obtain ⟨hclosed, rfl⟩ | ⟨hopen, hcur, hw, hframe, hblock, hhigh, hwf⟩ := State.doFinalize_cases h
  · exact .nothing (by rintro rfl; simp at hi) hclosed
  · exact .close hi hopen hcur hw ⟨hframe, hblock, hhigh, hwf⟩

/-- Every effect is one of the five. -/
theorem does_of_effect {i : Instr} {s u : State} (h : effect i s = .ok u) : Does s i u := by
  cases i with
  | init =>
    cases h
    exact .init
  | input d =>
    cases hc : s.computed with
    | true =>
      rw [effect_closed (by simp) hc] at h
      cases h
      exact .nothing (by simp) hc
    | false =>
      rw [effect_input_open hc] at h
      obtain ⟨hcur, rfl⟩ | ⟨hcur, hw, rfl⟩ := State.feedByte_inv h
      · exact .byte hc hcur
      · exact .block hc hcur hw
  | finalize => exact does_of_doFinalize (.inl rfl) h
  | result => exact does_of_doFinalize (.inr rfl) h

/-- What a command that completes did, and what it answered. -/
theorem does_of_exec {i : Instr} {s t : State} (h : exec i s = .next t) :
    ∃ u, Does s i u ∧ t = u.respond (answer i s u) := by
  obtain ⟨u, hu, ht⟩ := exec_next_inv h
  exact ⟨u, does_of_effect hu, ht⟩

section
variable {s u : State} {i : Instr}

theorem Does.port (h : Does s i u) : u.port = s.port := by
  cases h with
  | close _ _ _ _ hu => rw [hu.frame]
  | _ => rfl

theorem Does.responses (h : Does s i u) : u.responses = s.responses := by
  cases h with
  | close _ _ _ _ hu => rw [hu.frame]
  | _ => rfl

end

/-! ### What every command gives -/

theorem dvalid_answer_iff (i : Instr) (s u : State) : (answer i s u).dvalid = true ↔ i = .result := by
  cases i <;> simp [answer, Response.dvalid]

/-- The one error a command answers is that of an `INPUT` on a closed message (R88, R202). -/
theorem status_answer (i : Instr) (s u : State) :
    ((answer i s u).status = .ok ∧ ¬ (s.computed = true ∧ ∃ d, i = .input d)) ∨
      ((answer i s u).status = .alreadyFinalized ∧ s.computed = true ∧ ∃ d, i = .input d) := by
  cases i with
  | input d => cases hc : s.computed <;> simp [answer, hc]
  | _ => simp [answer]

/-- Settles O29: the effect leaves both ports, and the answer is the one response. -/
theorem everyCommandGivesOneResponse : Obligations.EveryCommandGivesOneResponse := by
  intro i s t h
  obtain ⟨u, hu, rfl⟩ := does_of_exec h
  exact ⟨hu.port, answer i s u, by simp [hu.responses], dvalid_answer_iff i s u, status_answer i s u⟩

/-! ### What every command changes and keeps -/

/-- Settles O31: of the five effects, doing nothing and storing a byte with room behind it keep `H`. -/
theorem digestStateIsWrittenOnlyByInitAndCompression : Obligations.DigestStateIsWrittenOnlyByInitAndCompression := by
  intro i s t h hne
  obtain ⟨u, hu, rfl⟩ := does_of_exec h
  cases hu with
  | init => exact .inl rfl
  | nothing _ _ => exact absurd rfl hne
  | byte _ _ => exact absurd rfl hne
  | block hopen hcur _ => exact .inr ⟨hopen, .inl ⟨⟨_, rfl⟩, hcur⟩⟩
  | close hi hopen _ _ _ => exact .inr ⟨hopen, .inr hi⟩

theorem toNat_cursor_succ {c : Cursor} (h : c.toNat < 127) : (c + 1#7).toNat = c.toNat + 1 := by
  simp [BitVec.toNat_add]
  omega

/-- Settles O32: the registers that each of the five effects leaves. -/
theorem controlRegistersFollowTheTransitionTable : Obligations.ControlRegistersFollowTheTransitionTable := by
  intro i s t h
  obtain ⟨u, hu, rfl⟩ := does_of_exec h
  cases hu with
  | init => exact ⟨rfl, rfl, rfl⟩
  | nothing hi hclosed =>
    cases i with
    | init => exact absurd rfl hi
    | input d => simp [hclosed]
    | finalize => simp [hclosed]
    | result => simp [hclosed]
  | byte hopen hcur =>
    have hnext : (s.cur + 1#7).toNat = (s.cur.toNat + 1) % 64 := by
      rw [toNat_cursor_succ (by omega), Nat.mod_eq_of_lt (by omega)]
    exact ⟨rfl, by simp [hopen], fun _ => ⟨rfl, hnext⟩⟩
  | block hopen hcur _ => exact ⟨rfl, by simp [hopen], fun _ => ⟨rfl, by simp [hcur, afterFullBlock]⟩⟩
  | close hi hopen _ _ hu =>
    rw [hu.frame]
    obtain rfl | rfl := hi <;> simp [hopen]

/-- Below the cursor, a finalization with `CUR ≤ 55` leaves the bytes received so far (R174). -/
theorem State.ClosesTo.read_below {s u : State} (h : s.ClosesTo u) (hw : s.Written) {p : Nat}
    (hcur : s.cur.toNat ≤ 55) (hp : p < s.cur.toNat) : u.buf.read p = s.buf.read p := by
  obtain ⟨v, hv⟩ := Option.isSome_iff_exists.1 (hw p hp)
  rw [h.block p (by omega), State.lastBlock_getElem, if_pos (by omega), if_pos hcur, State.tailByte, if_pos hp, hv,
    Option.getD_some]

/-- Settles O33: the bytes that each of the five effects stores. -/
theorem bufferBytesNotStoredToAreKept : Obligations.BufferBytesNotStoredToAreKept := by
  intro i s t p h
  obtain ⟨u, hu, rfl⟩ := does_of_exec h
  simp only [State.respond_buf]
  cases hu with
  | init => simp
  | nothing _ _ => simp
  | byte hopen _ => simp +contextual [hopen, afterByte, Memory.read_write, eq_comm]
  | block hopen _ _ => simp +contextual [hopen, afterFullBlock, Memory.read_write, eq_comm]
  | close hi hopen _ hw hu =>
    refine ⟨by rintro rfl; simp at hi, by simp [hopen], by rintro d rfl; simp at hi, fun _ _ hp => ?_⟩
    obtain h64 | ⟨h55, hlt⟩ := hp
    · exact hu.high p h64
    · exact hu.read_below hw h55 hlt

/-! ### Where a command completes -/

theorem feedByte_ok_iff (s : State) (d : Byte) :
    (∃ u, s.feedByte d = .ok u) ↔ s.cur.toNat ≤ 62 ∨ (s.cur.toNat = 63 ∧ s.Written) := by
  constructor
  · rintro ⟨u, hu⟩
    obtain ⟨hcur, -⟩ | ⟨hcur, hw, -⟩ := State.feedByte_inv hu
    · exact .inl (by omega)
    · exact .inr ⟨hcur, hw⟩
  · rintro (hcur | ⟨hcur, hw⟩)
    · exact ⟨_, s.feedByte_short d (by omega)⟩
    · exact ⟨_, s.feedByte_full d hcur hw⟩

theorem doFinalize_ok_iff (s : State) :
    (∃ u, s.doFinalize = .ok u) ↔ s.computed = true ∨ (s.cur.toNat ≤ 63 ∧ s.Written) := by
  constructor
  · rintro ⟨u, hu⟩
    obtain hc | ⟨-, hcur, hw⟩ := State.doFinalize_inv hu
    · exact .inl hc
    · exact .inr ⟨hcur, hw⟩
  · intro h
    cases hc : s.computed with
    | true => exact ⟨s, s.doFinalize_closed hc⟩
    | false =>
      obtain ⟨hcur, hw⟩ := h.resolve_left (by simp [hc])
      obtain ⟨u, hu, -⟩ := s.doFinalize_open hc hcur hw
      exact ⟨u, hu⟩

/-- Settles O34: a command completes exactly where its effect does. -/
theorem commandsCompleteExactlyHere : Obligations.CommandsCompleteExactlyHere := by
  intro s
  simp only [goesOn_exec_iff]
  refine ⟨⟨_, rfl⟩, fun d => ?_, doFinalize_ok_iff s, doFinalize_ok_iff s⟩
  cases hc : s.computed with
  | true => simp [effect_closed (i := .input d) (by simp) hc]
  | false => simp [effect_input_open hc, feedByte_ok_iff]

/-! ### The four commands -/

/-- Settles O21: `INIT` loads the initial state and answers. -/
theorem initLoadsTheInitialState : Obligations.InitLoadsTheInitialState :=
  ⟨by decide, fun s => execInit_eq s⟩

theorem fresh_iff (s : State) :
    s.fresh = true ↔ s.computed = false ∧ s.len = 0#64 ∧ s.cur = 0#7 ∧ s.h = hinit := by
  simp [State.fresh, and_assoc]

/-- On a fresh engine the initial state is there already (R171). -/
theorem loadInitial_of_fresh {s : State} (h : s.fresh = true) : s.loadInitial = s := by
  obtain ⟨hcomputed, hlen, hcur, hh⟩ := (fresh_iff s).1 h
  exact State.eq_of_fields hh.symm rfl hcur.symm hlen.symm hcomputed.symm rfl rfl rfl rfl

/-- Settles O22: `INIT` leaves a fresh engine, on which it changes nothing. -/
theorem initOnAFreshEngineChangesNothing : Obligations.InitOnAFreshEngineChangesNothing := by
  have hfresh : ∀ s : State, s.fresh = true → exec .init s = .next (s.respond ⟨.ok, none⟩) := fun s h =>
    (execInit_eq s).trans (by rw [loadInitial_of_fresh h])
  refine fun s => ⟨hfresh s, fun t ht => ?_⟩
  cases (execInit_eq s).symm.trans ht
  have hloaded : (s.loadInitial.respond ⟨.ok, none⟩).fresh = true := (fresh_iff _).2 ⟨rfl, rfl, rfl, rfl⟩
  exact ⟨hloaded, hfresh _ hloaded⟩

/-- The block that `INPUT d` completes, when 63 bytes of `b` stand in `BUF` and `d` is its last (R172). -/
theorem filledBlock_eq {s : State} {d : Byte} {b : Block} (hcur : s.cur.toNat = 63)
    (hb : ∀ p (hp : p < 63), s.buf.read p = some b[p]) (hd : b[63] = d) : filledBlock s d = b := by
  refine State.blockBytes_eq _ b fun p hp => ?_
  rw [State.setBuf_buf, Memory.read_write, hcur]
  by_cases h : 63 = p
  · subst h
    rw [if_pos rfl, hd]
  · rw [if_neg h, hb p (by omega)]

/-- The word of `INPUT d` as a number (R82). -/
theorem toNat_encode_input (d : Byte) : (encode (.input d)).toNat = 256 + d.toNat := by
  have hop := opField_toNat (encode (.input d))
  have hdata := dataField_toNat (encode (.input d))
  rw [(fields_input d).1, BitVec.toNat_ofNat] at hop
  rw [(fields_input d).2] at hdata
  omega

/-- Settles O23: the byte is stored, and at position 63 the block it completes is compressed. -/
theorem inputStoresOneByte : Obligations.InputStoresOneByte := by
  intro d s
  have hread (p : Nat) : (s.buf.write s.cur.toNat d).read p = if p = s.cur.toNat then some d else s.buf.read p := by
    rw [Memory.read_write]
    simp only [eq_comm]
  refine ⟨?_, fun hclosed => execInput_closed d s hclosed, fun hopen hcur => ?_, fun hopen hcur b hb hd => ?_⟩
  · have hd : d.toNat < 2 ^ 8 := d.isLt
    apply BitVec.eq_of_toNat_eq
    rw [toNat_encode_input, BitVec.toNat_add, BitVec.toNat_setWidth, BitVec.toNat_ofNat]
    omega
  · exact ⟨_, execInput_ok hopen (s.feedByte_short d (by omega)), rfl, hread⟩
  · have hw : s.Written := fun p hp => by rw [hb p (by omega)]; rfl
    have hfeed := s.feedByte_full d hcur hw
    rw [filledBlock_eq hcur hb hd] at hfeed
    exact ⟨_, execInput_ok hopen hfeed, rfl, hread⟩

/-- After `RESULT` the message is closed, and its answer was the digest of the `H` that stands (R175). -/
theorem execResult_leaves {s t : State} {r : Response} (h : exec .result s = .next t)
    (hr : t.responses = s.responses ++ [r]) : t.computed = true ∧ r = ⟨.ok, some (extractDigest t.h)⟩ := by
  obtain ⟨u, hu, rfl⟩ := does_of_exec h
  have hr' := (State.respond_responses_eq_append_iff hu.responses).1 hr
  refine ⟨?_, hr'.symm⟩
  cases hu with
  | nothing _ hclosed => exact hclosed
  | close _ _ _ _ hu => rw [hu.frame]; rfl

theorem execResult_closed (s : State) (h : s.computed = true) :
    exec .result s = .next (s.respond ⟨.ok, some (extractDigest s.h)⟩) :=
  execResult_ok (s.doFinalize_closed h)

/-- Settles O27: on a closed message `RESULT` gives the digest of `H`, and no command but `INIT` changes anything. -/
theorem resultIsAFixedPoint : Obligations.ResultIsAFixedPoint := by
  intro s t r h hr
  obtain ⟨hclosed, rfl⟩ := execResult_leaves h hr
  refine ⟨execResult_closed t hclosed, execFinalize_ok (t.doFinalize_closed hclosed),
    fun d => execInput_closed d t hclosed, fun r' => ?_⟩
  refine (execResult_closed (t.respond r') hclosed).trans ?_
  simp [State.respond]

/-- Settles O28: the two commands have one effect. -/
theorem resultLeavesTheStateOfFinalize : Obligations.ResultLeavesTheStateOfFinalize := by
  refine fun s => ⟨fun t h => ?_, fun f => ?_⟩
  · obtain ⟨u, hu, rfl⟩ := exec_next_inv h
    exact ⟨_, exec_of_effect_ok (i := .result) hu, rfl⟩
  · rw [exec_fault_iff, exec_fault_iff]
    rfl

end Sys2Proof.Machine
end

section
/-! The step, reset, and the invariant of every command boundary: what each of the five effects and a reset keep of it,
and that the engine never stops (10_state.md R34, 70_reset_and_hazards.md R230, R232, R245). -/

namespace Sys2Proof.Machine

/-! ### The step and reset -/

/-- Settles O35: the step on a word that decodes. -/
theorem stepRunsTheDecodedCommand : Obligations.StepRunsTheDecodedCommand := fun _ _ _ _ hport hdec =>
  step_command hport hdec

theorem step_idle {s : State} (h : s.port = []) : step s = .next s := by
  simp [step, h]

/-- Settles O36: the step with nothing to accept. -/
theorem stepWaitsWhenNothingIsPresented : Obligations.StepWaitsWhenNothingIsPresented := fun _ => step_idle

/-- An event that is no command word is a reset, in one of its two forms (R230, R232). -/
theorem step_reset {s : State} {ev : HostEvent} {rest : List HostEvent} (hport : s.port = ev :: rest)
    (hev : ∀ w, ev ≠ .command w) : step s = .next (s.setPort rest).hardwareReset := by
  cases ev with
  | command w => exact absurd rfl (hev w)
  | reset => simp [step, hport]
  | abandoned w => simp [step, hport]

/-- Settles O37: both forms of reset load what `INIT` loads. -/
theorem resetEventsLoadTheInitialState : Obligations.ResetEventsLoadTheInitialState := by
  intro s rest hport
  have hstep : step s = .next (s.setPort rest).hardwareReset := by
    obtain hport | ⟨w, hport⟩ := hport
    · exact step_reset hport nofun
    · exact step_reset hport nofun
  refine ⟨_, hstep, rfl, fun u hu => ?_⟩
  cases (execInit_eq s).symm.trans hu
  exact ⟨rfl, rfl, rfl, rfl⟩

/-- Settles O38: the fields of the reset state. -/
theorem resetLeavesTheTabulatedValues : Obligations.ResetLeavesTheTabulatedValues :=
  ⟨rfl, rfl, rfl, rfl, (fresh_iff _).2 ⟨rfl, rfl, rfl, rfl⟩⟩

/-! ### What keeps the invariant -/

/-- With the cursor at 0 no byte has been received yet. -/
theorem State.written_of_cur_eq_zero {s : State} (h : s.cur = 0#7) : s.Written := by
  intro p hp
  simp [h] at hp

/-- A message at its start meets the invariant when the buffer is canonical. -/
theorem State.inv_of_start {s : State} (hbuf : s.buf.wf = true) (hcur : s.cur = 0#7) (hlen : s.len = 0#64) :
    s.Inv where
  bufWf := hbuf
  curRange := by simp [hcur]
  written := State.written_of_cur_eq_zero hcur
  lenBytes := by simp [hlen]
  closed _ := ⟨hcur, hlen⟩

/-- Settles O39: reset starts a message with an empty buffer. -/
theorem resetSatisfiesTheInvariant : Obligations.ResetSatisfiesTheInvariant :=
  State.inv_of_start Memory.wf_nil rfl rfl

/-- A byte more of the message is eight bits more. -/
theorem toNat_len_add_eight_mod {len : LenWord} (h : len.toNat % 8 = 0) : (len + 8#64).toNat % 8 = 0 := by
  rw [BitVec.toNat_add, BitVec.toNat_ofNat]
  omega

section
variable {s t u : State} {i : Instr}

theorem State.Inv.setPort (h : s.Inv) (rest : List HostEvent) : (s.setPort rest).Inv :=
  ⟨h.bufWf, h.curRange, h.written, h.lenBytes, h.closed⟩

theorem State.Inv.respond (h : s.Inv) (r : Response) : (s.respond r).Inv :=
  ⟨h.bufWf, h.curRange, h.written, h.lenBytes, h.closed⟩

/-- After a byte is stored, every position below the new cursor holds a value (R58). -/
theorem written_afterByte {d : Byte} (hw : s.Written) (hcur : s.cur.toNat < 63) : (afterByte s d).Written := by
  intro p hp
  have hlt : p < s.cur.toNat + 1 := (toNat_cursor_succ (c := s.cur) (by omega)) ▸ hp
  simp only [afterByte, Memory.read_write]
  split
  · rfl
  · exact hw p (by omega)

/-- Each of the five effects keeps the invariant. -/
theorem State.Inv.does (h : s.Inv) (hu : Does s i u) : u.Inv := by
  cases hu with
  | init => exact State.inv_of_start h.bufWf rfl rfl
  | nothing _ _ => exact h
  | byte hopen hcur =>
    exact {
      bufWf := Memory.wf_write _ h.bufWf (Nat.lt_succ_of_le h.curRange)
      curRange := by
        simp only [afterByte]
        rw [toNat_cursor_succ (by omega)]
        omega
      written := written_afterByte h.written hcur
      lenBytes := toNat_len_add_eight_mod h.lenBytes
      closed := fun hc => absurd hc (by simp [afterByte, hopen]) }
  | block hopen hcur hw =>
    exact {
      bufWf := Memory.wf_write _ h.bufWf (Nat.lt_succ_of_le h.curRange)
      curRange := by simp [afterFullBlock]
      written := State.written_of_cur_eq_zero rfl
      lenBytes := toNat_len_add_eight_mod h.lenBytes
      closed := fun hc => absurd hc (by simp [afterFullBlock, hopen]) }
  | close _ _ _ _ hu => exact State.inv_of_start (hu.wf h.bufWf) (by rw [hu.frame]) (by rw [hu.frame])

theorem State.Inv.exec_next (h : s.Inv) (ht : exec i s = .next t) : t.Inv := by
  obtain ⟨u, hu, rfl⟩ := does_of_exec ht
  exact (h.does hu).respond _

theorem State.Inv.hardwareReset (s : State) : s.hardwareReset.Inv :=
  State.inv_of_start Memory.wf_nil rfl rfl

/-- A step keeps the invariant, whatever event it accepts. -/
theorem State.Inv.step_next (h : s.Inv) (ht : step s = .next t) : t.Inv := by
  obtain ⟨-, hs⟩ | ⟨w, rest, i, -, -, hs⟩ | ⟨w, rest, e, -, -, hs⟩ | ⟨ev, rest, -, -, hs⟩ := step_cases s
  · cases hs.symm.trans ht
    exact h
  · exact (h.setPort rest).exec_next (hs.symm.trans ht)
  · cases hs.symm.trans ht
    exact (h.setPort rest).respond _
  · cases hs.symm.trans ht
    exact .hardwareReset _

end

/-- Settles O40: each event is taken to a state that meets it by `State.Inv.step_next`. -/
theorem everyStepKeepsTheInvariant : Obligations.EveryStepKeepsTheInvariant := fun _ _ h ht => h.step_next ht

/-! ### The engine goes on -/

/-- Under the invariant every command completes, since the cursor is in range and the bytes below it are written. -/
theorem State.Inv.goesOn_exec {s : State} (h : s.Inv) (i : Instr) : goesOn (exec i s) := by
  obtain ⟨hinit, hinput, hfinalize, hresult⟩ := commandsCompleteExactlyHere s
  have hcur := h.curRange
  cases i with
  | init => exact hinit
  | input d =>
    refine (hinput d).2 (.inr ?_)
    by_cases h62 : s.cur.toNat ≤ 62
    · exact .inl h62
    · exact .inr ⟨by omega, h.written⟩
  | finalize => exact hfinalize.2 (.inr ⟨hcur, h.written⟩)
  | result => exact hresult.2 (.inr ⟨hcur, h.written⟩)

theorem State.Inv.goesOn_step {s : State} (h : s.Inv) : goesOn (step s) := by
  obtain ⟨-, hs⟩ | ⟨w, rest, i, -, -, hs⟩ | ⟨w, rest, e, -, -, hs⟩ | ⟨ev, rest, -, -, hs⟩ := step_cases s
  · exact ⟨_, hs⟩
  · rw [hs]
    exact (h.setPort rest).goesOn_exec i
  · exact ⟨_, hs⟩
  · exact ⟨_, hs⟩

/-- Settles O42: by induction on the number of steps, each of which goes on and keeps the invariant. -/
theorem theEngineNeverStops : Obligations.TheEngineNeverStops := by
  intro n
  induction n with
  | zero => exact fun s h => ⟨s, rfl, h⟩
  | succ n ih =>
    intro s h
    obtain ⟨t, ht⟩ := h.goesOn_step
    obtain ⟨u, hu, hinv⟩ := ih t (h.step_next ht)
    exact ⟨u, (State.run_next n ht).trans hu, hinv⟩

/-- No effect but that of `INIT` opens a closed message. -/
theorem eq_init_of_does_reopen {s u : State} {i : Instr} (h : Does s i u) (hs : s.computed = true)
    (hu : u.computed = false) : i = .init := by
  cases h with
  | init => rfl
  | nothing _ _ => simp [hs] at hu
  | byte hopen _ => simp [hs] at hopen
  | block hopen _ _ => simp [hs] at hopen
  | close _ hopen _ _ _ => simp [hs] at hopen

/-- Settles O41: of all a step can be, only `INIT` and a reset open a closed message. -/
theorem onlyInitAndResetReopenAMessage : Obligations.OnlyInitAndResetReopenAMessage := by
  intro s t ht hs hopen
  obtain ⟨-, hstep⟩ | ⟨w, rest, i, hport, hdec, hstep⟩ | ⟨w, rest, e, -, -, hstep⟩ | ⟨ev, rest, hport, hev, -⟩ :=
    step_cases s
  · cases hstep.symm.trans ht
    simp [hs] at hopen
  · obtain ⟨u, hu, rfl⟩ := does_of_exec (hstep.symm.trans ht)
    cases eq_init_of_does_reopen hu hs hopen
    have hw : encode .init = w := Encoding.encode_of_decode_eq_ok hdec
    exact ⟨rest, .inl (by rw [hport, ← hw]; rfl)⟩
  · cases hstep.symm.trans ht
    simp [hs] at hopen
  · refine ⟨rest, .inr ?_⟩
    cases ev with
    | command w => exact absurd rfl (hev w)
    | reset => exact .inl hport
    | abandoned w => exact .inr ⟨w, hport⟩

end Sys2Proof.Machine
end

section
/-! Noninterference: stale bytes of `BUF` and the ephemeral registers never reach a response (10_state.md R33). -/

namespace Sys2Proof.Machine

/-! ### What is computed from the visible part -/

section
variable {s t : State}

theorem State.SameVisible.written (h : s.SameVisible t) (hw : s.Written) : t.Written := by
  intro p hp
  rw [← h.cur] at hp
  rw [← h.block p hp]
  exact hw p hp

theorem State.SameVisible.tailByte_eq (h : s.SameVisible t) (p : Nat) : s.tailByte p = t.tailByte p := by
  rw [State.tailByte, State.tailByte, ← h.cur]
  split
  · rename_i hp
    rw [h.block p hp]
  · rfl

/-- What finalization leaves in `H` is made of the bytes below the cursor. -/
theorem State.SameVisible.closedH_eq (h : s.SameVisible t) : s.closedH = t.closedH := by
  have hmarked : s.markedBlock = t.markedBlock := by
    simp only [State.markedBlock, h.tailByte_eq]
  have hlast : s.lastBlock = t.lastBlock := by
    simp only [State.lastBlock, h.tailByte_eq, h.cur, h.len]
  rw [State.closedH, State.closedH, hmarked, hlast, h.cur, h.h]

/-- A byte stored at the cursor agrees, and so does everything below it. -/
theorem State.SameVisible.read_write (h : s.SameVisible t) (d : Byte) {p : Nat} (hp : p < s.cur.toNat + 1) :
    (s.buf.write s.cur.toNat d).read p = (t.buf.write t.cur.toNat d).read p := by
  rw [Memory.read_write, Memory.read_write, ← h.cur]
  split
  · rfl
  · exact h.block p (by omega)

/-- The block completed at position 63 is made of the bytes below it and the new byte. -/
theorem State.SameVisible.filledBlock_eq (h : s.SameVisible t) (hcur : s.cur.toNat = 63) (d : Byte) :
    filledBlock s d = filledBlock t d := by
  ext i hi : 1
  simp only [filledBlock, State.blockBytes, Vector.getElem_ofFn, State.setBuf_buf]
  rw [h.read_write d (by omega)]

/-- States at the start of a block have no byte below the cursor to compare. -/
theorem State.sameVisible_of_cur_eq_zero (hh : s.h = t.h) (hs : s.cur = 0#7) (ht : t.cur = 0#7) (hlen : s.len = t.len)
    (hcomputed : s.computed = t.computed) (hport : s.port = t.port) (hresponses : s.responses = t.responses) :
    s.SameVisible t :=
  ⟨hh, hs.trans ht.symm, hlen, hcomputed, hport, hresponses, fun p hp => by simp [hs] at hp⟩

theorem State.SameVisible.setPort (h : s.SameVisible t) (rest : List HostEvent) :
    (s.setPort rest).SameVisible (t.setPort rest) :=
  ⟨h.h, h.cur, h.len, h.computed, rfl, h.responses, h.block⟩

theorem State.SameVisible.respond (h : s.SameVisible t) (r : Response) : (s.respond r).SameVisible (t.respond r) :=
  ⟨h.h, h.cur, h.len, h.computed, h.port, congrArg (· ++ [r]) h.responses, h.block⟩

theorem State.SameVisible.hardwareReset (h : s.SameVisible t) : s.hardwareReset.SameVisible t.hardwareReset :=
  State.sameVisible_of_cur_eq_zero (by simp) (by simp) (by simp) (by simp) (by simp) (by simp [h.port])
    (by simp [h.responses])

/-! ### Commands, steps and runs from states that look alike -/

/-- An effect is the same on states that look alike, and leaves states that look alike. -/
theorem State.SameVisible.effect_ok {i : Instr} {u : State} (h : s.SameVisible t) (hu : effect i s = .ok u) :
    ∃ u', effect i t = .ok u' ∧ u.SameVisible u' := by
  cases does_of_effect hu with
  | init => exact ⟨_, rfl, State.sameVisible_of_cur_eq_zero rfl rfl rfl rfl rfl h.port h.responses⟩
  | nothing hi hclosed => exact ⟨t, effect_closed hi (h.computed ▸ hclosed), h⟩
  | @byte d hopen hcur =>
    have hfeed := t.feedByte_short d (h.cur ▸ hcur)
    refine ⟨_, (effect_input_open (h.computed ▸ hopen)).trans hfeed, h.h, congrArg (· + 1#7) h.cur,
      congrArg (· + 8#64) h.len, h.computed, h.port, h.responses, fun p hp => h.read_write _ ?_⟩
    exact (toNat_cursor_succ (c := s.cur) (by omega)) ▸ hp
  | @block d hopen hcur hw =>
    have hfeed := t.feedByte_full d (h.cur ▸ hcur) (h.written hw)
    refine ⟨_, (effect_input_open (h.computed ▸ hopen)).trans hfeed,
      State.sameVisible_of_cur_eq_zero ?_ rfl rfl (congrArg (· + 8#64) h.len) h.computed h.port h.responses⟩
    simp only [afterFullBlock]
    rw [h.h, h.filledBlock_eq hcur]
  | close hi hopen hcur hw hsu =>
    obtain ⟨u', hu', htu⟩ := effect_close_open hi (h.computed ▸ hopen) (h.cur ▸ hcur) (h.written hw)
    refine ⟨u', hu', ?_⟩
    rw [hsu.frame, htu.frame]
    exact State.sameVisible_of_cur_eq_zero h.closedH_eq rfl rfl rfl rfl h.port h.responses

theorem State.SameVisible.exec_next {i : Instr} {s' : State} (h : s.SameVisible t) (hs : exec i s = .next s') :
    ∃ t', exec i t = .next t' ∧ s'.SameVisible t' := by
  obtain ⟨u, hu, rfl⟩ := exec_next_inv hs
  obtain ⟨u', hu', hsame⟩ := h.effect_ok hu
  have hanswer : answer i t u' = answer i s u := by
    simp only [answer, h.computed, hsame.h]
  refine ⟨_, exec_of_effect_ok hu', ?_⟩
  rw [hanswer]
  exact hsame.respond _

theorem State.SameVisible.step_next {s' : State} (h : s.SameVisible t) (hs : step s = .next s') :
    ∃ t', step t = .next t' ∧ s'.SameVisible t' := by
  obtain ⟨hport, hstep⟩ | ⟨w, rest, i, hport, hdec, hstep⟩ | ⟨w, rest, e, hport, hdec, hstep⟩ |
    ⟨ev, rest, hport, hev, hstep⟩ := step_cases s
  · cases hstep.symm.trans hs
    exact ⟨t, step_idle (h.port ▸ hport), h⟩
  · rw [step_command (h.port ▸ hport) hdec]
    exact (h.setPort rest).exec_next (hstep.symm.trans hs)
  · cases hstep.symm.trans hs
    exact ⟨_, step_illegal (h.port ▸ hport) hdec, (h.setPort rest).respond _⟩
  · cases hstep.symm.trans hs
    exact ⟨_, step_reset (h.port ▸ hport) hev, (h.setPort rest).hardwareReset⟩

theorem State.SameVisible.run_next {s' : State} {n : Nat} (h : s.SameVisible t) (hs : s.run n = .next s') :
    ∃ t', t.run n = .next t' ∧ s'.SameVisible t' := by
  induction n generalizing s t with
  | zero =>
    cases hs
    exact ⟨t, rfl, h⟩
  | succ n ih =>
    obtain ⟨u, hu, hrun⟩ := State.run_next_inv hs
    obtain ⟨v, hv, hsame⟩ := h.step_next hu
    obtain ⟨t', ht', hfinal⟩ := ih hsame hrun
    exact ⟨t', (State.run_next n hv).trans ht', hfinal⟩

end

/-- Settles O43: by induction on the number of steps, each of which takes states that look alike to such states. The
invariant is not needed: a run of the second state stops nowhere because that of the first did not. -/
theorem hiddenStateNeverReachesAResponse : Obligations.HiddenStateNeverReachesAResponse :=
  fun _ _ _ _ _ _ hsame hrun => hsame.run_next hrun

end Sys2Proof.Machine
end

section
/-! Runs of command words: nothing in the engine reads the two ports, so a run of words presented on the port is one
command after the other, whatever else stands there and whatever was answered before (10_state.md R36, R245). -/

namespace Sys2Proof.Machine

/-! ### No effect reads the ports -/

/-- The same engine with other contents of the two ports. -/
def State.onPorts (f : List HostEvent → List HostEvent) (g : List Response → List Response) (s : State) : State :=
  { s with port := f s.port, responses := g s.responses }

section
variable (f : List HostEvent → List HostEvent) (g : List Response → List Response) (s : State)

theorem State.writeByte_onPorts (p : Nat) (v : Byte) :
    (s.onPorts f g).writeByte p v = State.onPorts f g <$> s.writeByte p v := by
  by_cases hp : p < bufSize
  · rw [State.writeByte_ok _ v hp, State.writeByte_ok _ v hp]
    rfl
  · rw [State.writeByte_error _ v hp, State.writeByte_error _ v hp]
    rfl

theorem State.writeBytes_onPorts (p : Nat) (vs : List Byte) :
    (s.onPorts f g).writeBytes p vs = State.onPorts f g <$> s.writeBytes p vs := by
  induction vs generalizing s p with
  | nil => rfl
  | cons v vs ih => simp [State.writeBytes, State.writeByte_onPorts, ih]

theorem State.putByte_onPorts (v : Byte) : (s.onPorts f g).putByte v = State.onPorts f g <$> s.putByte v := by
  simp only [State.putByte, State.writeByte_onPorts, map_bind, bind_map_left, map_pure]
  rfl

theorem State.putZeros_onPorts (n : Nat) : (s.onPorts f g).putZeros n = State.onPorts f g <$> s.putZeros n := by
  induction n generalizing s with
  | zero => rfl
  | succ n ih => simp [State.putZeros, State.putByte_onPorts, ih]

theorem State.fillTo_onPorts (limit : Nat) : (s.onPorts f g).fillTo limit = State.onPorts f g <$> s.fillTo limit :=
  State.putZeros_onPorts f g s _

theorem State.compress_onPorts : (s.onPorts f g).compress = State.onPorts f g <$> s.compress := by
  have hread : (s.onPorts f g).readBlock = s.readBlock := rfl
  simp only [State.compress, hread, map_bind, map_pure]
  rfl

theorem State.padToLength_onPorts : (s.onPorts f g).padToLength = State.onPorts f g <$> s.padToLength := by
  have hcur : (s.onPorts f g).cur = s.cur := rfl
  simp only [State.padToLength, hcur]
  split <;> simp [State.putByte_onPorts, State.fillTo_onPorts, State.compress_onPorts]

theorem State.pad_onPorts : (s.onPorts f g).pad = State.onPorts f g <$> s.pad := by
  have hcur (u : State) : (u.onPorts f g).setCur 64#7 = (u.setCur 64#7).onPorts f g := rfl
  have hlen (u : State) : (u.onPorts f g).len = u.len := rfl
  simp [State.pad, State.padToLength_onPorts, State.writeBytes_onPorts, State.compress_onPorts, hcur, hlen]

theorem State.doFinalize_onPorts : (s.onPorts f g).doFinalize = State.onPorts f g <$> s.doFinalize := by
  have hflag : (s.onPorts f g).finalized = s.finalized := rfl
  simp only [State.doFinalize, hflag]
  split
  · rfl
  · simp only [State.pad_onPorts, map_bind, bind_map_left, map_pure]
    rfl

theorem State.feedByte_onPorts (d : Byte) : (s.onPorts f g).feedByte d = State.onPorts f g <$> s.feedByte d := by
  have hlen (u : State) : (u.onPorts f g).setLen (addW (u.onPorts f g).len 8#64) =
      (u.setLen (addW u.len 8#64)).onPorts f g := rfl
  have hcur (u : State) : (u.onPorts f g).cur = u.cur := rfl
  simp only [State.feedByte, State.putByte_onPorts, map_bind, bind_map_left, hlen, hcur]
  congr 1
  funext u
  split
  · exact State.compress_onPorts f g _
  · rfl

theorem effect_onPorts (i : Instr) : effect i (s.onPorts f g) = State.onPorts f g <$> effect i s := by
  have hflag : (s.onPorts f g).computed = s.computed := rfl
  cases i with
  | init => rfl
  | input d =>
    simp only [effect, hflag]
    split
    · rfl
    · exact State.feedByte_onPorts f g s d
  | finalize => exact State.doFinalize_onPorts f g s
  | result => exact State.doFinalize_onPorts f g s

end

/-! ### Outcomes one after the other -/

/-- Go on with `k` from a next state; a stop stays. -/
def andThen (o : Host.Outcome State Fault Refusal) (k : State → Host.Outcome State Fault Refusal) :
    Host.Outcome State Fault Refusal :=
  match o with
  | .next t => k t
  | .fault f => .fault f
  | .refused r => .refused r

@[simp] theorem andThen_next (t : State) (k : State → Host.Outcome State Fault Refusal) :
    andThen (.next t) k = k t := rfl

theorem andThen_assoc (o : Host.Outcome State Fault Refusal) (k l : State → Host.Outcome State Fault Refusal) :
    andThen (andThen o k) l = andThen o fun t => andThen (k t) l := by
  cases o <;> rfl

theorem andThen_next_inv {o : Host.Outcome State Fault Refusal} {k : State → Host.Outcome State Fault Refusal}
    {t : State} (h : andThen o k = .next t) : ∃ u, o = .next u ∧ k u = .next t := by
  cases o with
  | next u => exact ⟨u, rfl, h⟩
  | fault f => cases h
  | refused r => cases h

theorem State.run_succ (s : State) (n : Nat) : s.run (n + 1) = andThen (step s) (State.run n) := by
  cases hs : step s with
  | next t => exact State.run_next n hs
  | fault f =>
    have h' : Sys2Proof.core.step s = .fault f := hs
    simp only [State.run, Host.Core.run, h']
    rfl
  | refused r =>
    have h' : Sys2Proof.core.step s = .refused r := hs
    simp only [State.run, Host.Core.run, h']
    rfl

/-! ### A run of words is one command after the other -/

/-- The outcome of accepting the words one after the other, with no look at the command port. -/
def State.accept (s : State) : List CmdWord → Host.Outcome State Fault Refusal
  | [] => .next s
  | w :: ws => andThen (execWord exec w s) fun t => t.accept ws

theorem State.accept_cons (s : State) (w : CmdWord) (ws : List CmdWord) :
    s.accept (w :: ws) = andThen (execWord exec w s) fun t => t.accept ws := rfl

theorem State.accept_append (s : State) (ws vs : List CmdWord) :
    s.accept (ws ++ vs) = andThen (s.accept ws) fun t => t.accept vs := by
  induction ws generalizing s with
  | nil => rfl
  | cons w ws ih => simp only [List.cons_append, State.accept_cons, ih, andThen_assoc]

theorem execWord_of_decode_ok {w : CmdWord} {i : Instr} (s : State) (h : decode w = .ok i) :
    execWord exec w s = exec i s := by
  simp [execWord, h]

theorem execWord_of_decode_error {w : CmdWord} {e : DecodeError} (s : State) (h : decode w = .error e) :
    execWord exec w s = .next (s.respond ⟨.illegalCommand, none⟩) := by
  simp [execWord, h, execIllegal]

/-- The word of a command runs it. -/
@[simp] theorem execWord_encode (i : Instr) (s : State) : execWord exec (encode i) s = exec i s :=
  execWord_of_decode_ok s (Encoding.decode_encode i)

theorem exec_setPort (i : Instr) (s : State) (p : List HostEvent) :
    exec i (s.setPort p) = andThen (exec i s) fun t => .next (t.setPort p) := by
  have heffect : effect i (s.setPort p) = State.onPorts (fun _ => p) id <$> effect i s :=
    effect_onPorts (fun _ => p) id s i
  rw [exec_eq_answered, exec_eq_answered, heffect]
  cases effect i s <;> rfl

/-- What stands on the command port is neither read nor changed while a word is executed. -/
theorem execWord_setPort (w : CmdWord) (s : State) (p : List HostEvent) :
    execWord exec w (s.setPort p) = andThen (execWord exec w s) fun t => .next (t.setPort p) := by
  cases hd : decode w with
  | ok i => simp only [execWord_of_decode_ok _ hd, exec_setPort]
  | error e => simp only [execWord_of_decode_error _ hd]; rfl

theorem port_of_execWord {w : CmdWord} {s t : State} (h : execWord exec w s = .next t) : t.port = s.port := by
  cases hd : decode w with
  | ok i =>
    rw [execWord_of_decode_ok _ hd] at h
    obtain ⟨u, hu, rfl⟩ := does_of_exec h
    exact hu.port
  | error e =>
    cases (execWord_of_decode_error s hd).symm.trans h
    rfl

theorem State.present_eq_setPort (s : State) (ws : List CmdWord) :
    s.present ws = s.setPort (ws.map HostEvent.command ++ s.port) := rfl

theorem step_present_cons (s : State) (w : CmdWord) (ws : List CmdWord) :
    step (s.present (w :: ws)) = execWord exec w (s.present ws) := rfl

/-- Presenting words and running as many steps accepts them all, in order, whatever the host presents later (R245). -/
theorem State.run_present (s : State) (ws : List CmdWord) : (s.present ws).run ws.length = s.accept ws := by
  induction ws generalizing s with
  | nil => rfl
  | cons w ws ih =>
    rw [List.length_cons, State.run_succ, step_present_cons, State.present_eq_setPort, execWord_setPort, andThen_assoc,
      State.accept_cons]
    cases ht : execWord exec w s with
    | next t =>
      have hpresent : t.setPort (ws.map HostEvent.command ++ s.port) = t.present ws := by
        rw [← port_of_execWord ht, State.present_eq_setPort]
      simp only [andThen_next, hpresent, ih]
    | fault f => rfl
    | refused r => rfl

/-! ### Chunks -/

theorem length_inputsWords (m : List Byte) : (inputsWords m).length = m.length :=
  List.length_map _

theorem inputsWords_append (m x : List Byte) : inputsWords (m ++ x) = inputsWords m ++ inputsWords x :=
  List.map_append

theorem inputsWords_cons (d : Byte) (m : List Byte) : inputsWords (d :: m) = encode (.input d) :: inputsWords m := rfl

theorem State.inputs_eq_accept (s : State) (m : List Byte) : s.inputs m = s.accept (inputsWords m) := by
  rw [State.inputs, ← length_inputsWords m, State.run_present]

theorem State.inputsEach_cons_eq (s : State) (m : List Byte) (chunks : List (List Byte)) :
    s.inputsEach (m :: chunks) = andThen (s.inputs m) fun t => t.inputsEach chunks := by
  rw [State.inputsEach]
  cases s.inputs m <;> rfl

/-- Chunks presented one after the other are accepted as the whole sequence is, stops included (R178). -/
theorem State.inputsEach_eq_inputs_flatten (s : State) (chunks : List (List Byte)) :
    s.inputsEach chunks = s.inputs chunks.flatten := by
  induction chunks generalizing s with
  | nil => rfl
  | cons m chunks ih =>
    simp only [State.inputsEach_cons_eq, ih, State.inputs_eq_accept, List.flatten_cons, inputsWords_append,
      State.accept_append]

/-! ### Illegal words among the others -/

/-- `s` is `u` but for the responses given. -/
def State.SameButResponses (s u : State) : Prop :=
  s = { u with responses := s.responses }

theorem State.SameButResponses.refl (s : State) : s.SameButResponses s := by
  rw [State.SameButResponses]

theorem State.SameButResponses.exec_next {s s' t : State} {i : Instr} (h : s.SameButResponses s')
    (ht : exec i s = .next t) : ∃ t', exec i s' = .next t' ∧ t.SameButResponses t' := by
  obtain ⟨u, hu, rfl⟩ := exec_next_inv ht
  have heffect : effect i s = State.onPorts id (fun _ => s.responses) <$> effect i s' := by
    rw [← effect_onPorts, State.onPorts]
    exact congrArg (effect i) h
  rw [hu] at heffect
  cases hu' : effect i s' with
  | error f =>
    rw [hu'] at heffect
    cases heffect
  | ok u' =>
    rw [hu'] at heffect
    cases heffect
    exact ⟨_, exec_of_effect_ok hu', rfl⟩

/-- The words that the statement keeps are those that decode. -/
theorem isSome_decodeTableWord_toNat (w : CmdWord) : (decodeTableWord 12 w.toNat).isSome = (decode w).isOk := by
  rw [decodeTableWord, Encoding.tableCommand_twelve, BitVec.ofNat_toNat, BitVec.setWidth_eq]
  cases decode w <;> rfl

/-- Leaving the illegal words out of a run that completes changes what was answered and nothing else. -/
theorem State.SameButResponses.accept_legal {s s' t : State} (ws : List CmdWord) (h : s.SameButResponses s')
    (ht : s.accept ws = .next t) :
    ∃ u, s'.accept (ws.filter fun w => (decodeTableWord 12 w.toNat).isSome) = .next u ∧ t.SameButResponses u := by
  induction ws generalizing s s' with
  | nil =>
    cases ht
    exact ⟨s', rfl, h⟩
  | cons w ws ih =>
    obtain ⟨v, hv, hrest⟩ := andThen_next_inv ht
    cases hd : decode w with
    | ok i =>
      rw [execWord_of_decode_ok _ hd] at hv
      obtain ⟨v', hv', hsame⟩ := h.exec_next hv
      obtain ⟨u, hu, hfinal⟩ := ih hsame hrest
      refine ⟨u, ?_, hfinal⟩
      rw [List.filter_cons_of_pos (by simp [isSome_decodeTableWord_toNat, hd, Except.isOk, Except.toBool]),
        State.accept_cons, execWord_of_decode_ok _ hd, hv', andThen_next, hu]
    | error e =>
      cases (execWord_of_decode_error s hd).symm.trans hv
      have hsame : (s.respond ⟨.illegalCommand, none⟩).SameButResponses s' :=
        congrArg (State.respond · ⟨.illegalCommand, none⟩) h
      rw [List.filter_cons_of_neg (by simp [isSome_decodeTableWord_toNat, hd, Except.isOk, Except.toBool])]
      exact ih hsame hrest

/-- Settles O48: the run of the words is their acceptance one after the other, in which illegal words only answer. -/
theorem illegalWordsLeaveAMessageAlone : Obligations.IllegalWordsLeaveAMessageAlone := by
  intro s t ws ht
  rw [State.run_present] at ht
  rw [State.run_present]
  exact (State.SameButResponses.refl s).accept_legal ws ht

end Sys2Proof.Machine
end

section
/-! The padded message piece by piece (43_hasher_commands.md R180, R181). -/

namespace Sys2Proof.Machine

/-! ### Its length -/

theorem length_lengthBytes (len : LenWord) : (lengthBytes len).length = 8 := rfl

theorem length_paddedMessage (m : List Byte) :
    (paddedMessage m).length = m.length + 1 + paddingZeros m.length + 8 := by
  simp only [paddedMessage, List.length_append, List.length_replicate, length_lengthBytes, List.length_singleton]

/-- The zero bytes fill the block with the length field in it (R181). -/
theorem add_paddingZeros (n : Nat) : n + 1 + paddingZeros n + 8 = 64 * ((n + 8) / 64 + 1) := by
  rw [paddingZeros]
  omega

theorem length_pieces (bytes : List Byte) : (pieces bytes).length = bytes.length / 64 := by
  simp [pieces]

/-- Settles O45: the padded message fills its last block, and `(55 - n) mod 64` is the least number that does it. -/
theorem paddedMessageIsWholeBlocks : Obligations.PaddedMessageIsWholeBlocks := by
  intro m
  have hlen : (paddedMessage m).length = 64 * ((m.length + 8) / 64 + 1) :=
    (length_paddedMessage m).trans (add_paddingZeros m.length)
  refine ⟨?_, hlen, fun z hz => ?_⟩
  · rw [length_pieces, hlen, Nat.mul_div_cancel_left _ (by decide)]
  · rw [paddingZeros]
    omega

/-! ### Its bytes -/

/-- What padding appends to the message. -/
theorem paddedMessage_eq_append (m : List Byte) : paddedMessage m =
    m ++ markerByte ::
      (List.replicate (paddingZeros m.length) 0x00#8 ++ lengthBytes (BitVec.ofNat 64 (8 * m.length))) := by
  simp [paddedMessage]

section
variable {m : List Byte} {q : Nat}

theorem paddedMessage_getD_of_lt (h : q < m.length) : (paddedMessage m).getD q 0x00#8 = m.getD q 0x00#8 := by
  rw [paddedMessage_eq_append, List.getD_append _ _ _ _ h]

theorem paddedMessage_getD_length : (paddedMessage m).getD m.length 0x00#8 = markerByte := by
  rw [paddedMessage_eq_append, List.getD_append_right _ _ _ _ le_rfl, Nat.sub_self]
  rfl

theorem paddedMessage_getD_zeros (h : m.length < q) (h' : q < m.length + 1 + paddingZeros m.length) :
    (paddedMessage m).getD q 0x00#8 = 0x00#8 := by
  rw [paddedMessage_eq_append, List.getD_append_right _ _ _ _ h.le,
    show q - m.length = (q - m.length - 1) + 1 by omega, List.getD_cons_succ,
    List.getD_append _ _ _ _ (by rw [List.length_replicate]; omega), List.getD_replicate _ (by omega)]

/-- The last eight bytes are the length field. -/
theorem paddedMessage_getD_lengthField {i : Nat} (hi : i < 8) (h : m.length + 1 + paddingZeros m.length + i = q) :
    (paddedMessage m).getD q 0x00#8 = (BitVec.ofNat 64 (8 * m.length) >>> (56 - 8 * i)).setWidth 8 := by
  rw [paddedMessage_eq_append, List.getD_append_right _ _ _ _ (by omega),
    show q - m.length = (paddingZeros m.length + i) + 1 by omega, List.getD_cons_succ,
    List.getD_append_right _ _ _ _ (by rw [List.length_replicate]; omega), List.length_replicate,
    Nat.add_sub_cancel_left, List.getD_eq_getElem?_getD, lengthBytes_getElem?_shift _ hi, Option.getD_some]

end

/-! ### The pieces of a byte string and of what it begins -/

theorem pieceAt_getElem (bytes : List Byte) (k : Nat) {p : Nat} (hp : p < 64) :
    (pieceAt bytes k)[p] = bytes.getD (64 * k + p) 0x00#8 := by
  simp [pieceAt]

/-- A whole piece keeps its bytes when more are appended. -/
theorem pieceAt_append {m : List Byte} (x : List Byte) {k : Nat} (h : k < m.length / 64) :
    pieceAt (m ++ x) k = pieceAt m k := by
  ext p hp : 1
  rw [pieceAt_getElem _ _ hp, pieceAt_getElem _ _ hp, List.getD_append _ _ _ _ (by omega)]

/-- The pieces of a longer byte string are those of its beginning, then its own. -/
theorem pieces_append (m x : List Byte) {r : Nat} (h : (m ++ x).length / 64 = m.length / 64 + r) :
    pieces (m ++ x) = pieces m ++ (List.range r).map fun j => pieceAt (m ++ x) (m.length / 64 + j) := by
  have hbegin : (List.range (m.length / 64)).map (pieceAt (m ++ x)) = pieces m :=
    List.map_congr_left fun k hk => pieceAt_append x (List.mem_range.1 hk)
  rw [pieces, h, List.range_add, List.map_append, List.map_map, hbegin]
  rfl

end Sys2Proof.Machine
end

section
/-! Whole messages: the engine after `INIT` and a byte string is described by that string alone, every `INPUT` appends
a byte to it, and a finalization compresses the rest of its padded form (43_hasher_commands.md R160, R178 to R182). -/

namespace Sys2Proof.Machine

/-- `s` is the open message `m`: the whole blocks of `m` are compressed, the bytes after them stand in `BUF`, and the
counters count them. -/
structure State.Holds (s : State) (m : List Byte) : Prop where
  h : s.h = (pieces m).foldl compressBlock hinit
  cur : s.cur.toNat = m.length % 64
  len : s.len = BitVec.ofNat 64 (8 * m.length)
  computed : s.computed = false
  block : ∀ p, p < m.length % 64 → s.buf.read p = some (m.getD (64 * (m.length / 64) + p) 0x00#8)

/-- The initial state is the open empty message, whatever `BUF` holds. -/
theorem State.holds_loadInitial (s : State) : s.loadInitial.Holds [] where
  h := rfl
  cur := rfl
  len := rfl
  computed := rfl
  block p hp := by simp at hp

section
variable {s : State} {m : List Byte}

theorem State.Holds.respond (h : s.Holds m) (r : Response) : (s.respond r).Holds m :=
  ⟨h.h, h.cur, h.len, h.computed, h.block⟩

theorem State.Holds.written (h : s.Holds m) : s.Written := by
  intro p hp
  rw [h.cur] at hp
  rw [h.block p hp]
  rfl

/-! ### One byte more -/

theorem State.Holds.len_append (h : s.Holds m) (d : Byte) :
    s.len + 8#64 = BitVec.ofNat 64 (8 * (m ++ [d]).length) := by
  rw [h.len, ← BitVec.ofNat_add, List.length_append, List.length_singleton, Nat.mul_add]

/-- With the new byte stored at the cursor, `BUF` holds the current block of the longer message. -/
theorem State.Holds.read_write (h : s.Holds m) (d : Byte) {p : Nat} (hp : p < m.length % 64 + 1) :
    (s.buf.write s.cur.toNat d).read p = some ((m ++ [d]).getD (64 * (m.length / 64) + p) 0x00#8) := by
  rw [Memory.read_write, h.cur]
  by_cases hlast : m.length % 64 = p
  · rw [if_pos hlast, ← hlast, Nat.div_add_mod, List.getD_append_right _ _ _ _ le_rfl, Nat.sub_self]
    rfl
  · rw [if_neg hlast, h.block p (by omega), List.getD_append _ _ _ _ (by omega)]

theorem State.Holds.afterByte (h : s.Holds m) (d : Byte) (hcur : s.cur.toNat < 63) :
    (afterByte s d).Holds (m ++ [d]) := by
  have hm := h.cur
  have hdiv : (m ++ [d]).length / 64 = m.length / 64 + 0 := by
    rw [List.length_append, List.length_singleton]
    omega
  have hmod : (m ++ [d]).length % 64 = m.length % 64 + 1 := by
    rw [List.length_append, List.length_singleton]
    omega
  have hpieces : pieces (m ++ [d]) = pieces m := by simpa using pieces_append m [d] hdiv
  refine ⟨by rw [hpieces]; exact h.h, ?_, h.len_append d, h.computed, fun p hp => ?_⟩
  · rw [hmod, ← hm]
    exact toNat_cursor_succ (by omega)
  · rw [hmod] at hp
    rw [hdiv]
    exact h.read_write d hp

theorem State.Holds.afterFullBlock (h : s.Holds m) (d : Byte) (hcur : s.cur.toNat = 63) :
    (afterFullBlock s d (filledBlock s d)).Holds (m ++ [d]) := by
  have hm := h.cur
  have hdiv : (m ++ [d]).length / 64 = m.length / 64 + 1 := by
    rw [List.length_append, List.length_singleton]
    omega
  have hmod : (m ++ [d]).length % 64 = 0 := by
    rw [List.length_append, List.length_singleton]
    omega
  have hpiece : filledBlock s d = pieceAt (m ++ [d]) (m.length / 64) :=
    State.blockBytes_eq _ _ fun p hp => by
      rw [State.setBuf_buf, h.read_write d (by omega), pieceAt_getElem]
  refine ⟨?_, hmod.symm, h.len_append d, h.computed, fun p hp => by omega⟩
  rw [pieces_append m [d] hdiv, List.foldl_append, ← h.h, hpiece]
  rfl

/-- `INPUT d` appends `d` to the open message (R172). -/
theorem State.Holds.exec_input (h : s.Holds m) (d : Byte) :
    ∃ t, exec (.input d) s = .next t ∧ t.Holds (m ++ [d]) ∧ t.port = s.port ∧
      t.responses = s.responses ++ [⟨.ok, none⟩] := by
  have hcur := h.cur
  by_cases h63 : s.cur.toNat < 63
  · exact ⟨_, execInput_ok h.computed (s.feedByte_short d h63), (h.afterByte d h63).respond _, rfl, rfl⟩
  · have hfull : s.cur.toNat = 63 := by omega
    exact ⟨_, execInput_ok h.computed (s.feedByte_full d hfull h.written), (h.afterFullBlock d hfull).respond _, rfl,
      rfl⟩

/-- `INPUTS x` appends `x` to the open message, each byte answered `OK` (R92). -/
theorem State.Holds.accept_inputs (x : List Byte) (h : s.Holds m) :
    ∃ t, s.accept (inputsWords x) = .next t ∧ t.Holds (m ++ x) ∧ t.port = s.port ∧
      t.responses = s.responses ++ List.replicate x.length ⟨.ok, none⟩ := by
  induction x generalizing s m with
  | nil => exact ⟨s, rfl, by simpa using h, rfl, by simp⟩
  | cons d x ih =>
    obtain ⟨t, ht, hold, hport, hresp⟩ := h.exec_input d
    obtain ⟨u, hu, hold', hport', hresp'⟩ := ih hold
    refine ⟨u, ?_, by simpa using hold', hport'.trans hport, ?_⟩
    · rw [inputsWords_cons, State.accept_cons, execWord_encode, ht, andThen_next, hu]
    · rw [hresp', hresp, List.length_cons, List.replicate_succ, List.append_assoc, List.singleton_append]

/-! ### The blocks that finalization compresses -/

/-- The tail that finalization makes in the current block is that of the padded message. -/
theorem State.Holds.tailByte_eq (h : s.Holds m) {p : Nat}
    (hp : 64 * (m.length / 64) + p < m.length + 1 + paddingZeros m.length) :
    s.tailByte p = (paddedMessage m).getD (64 * (m.length / 64) + p) 0x00#8 := by
  have hdiv := Nat.div_add_mod m.length 64
  rw [State.tailByte, h.cur]
  split_ifs with hlt heq
  · rw [h.block p hlt, Option.getD_some, paddedMessage_getD_of_lt (by omega)]
  · rw [heq, hdiv, paddedMessage_getD_length, markerByte]
  · rw [paddedMessage_getD_zeros (by omega) hp]

/-- The length field of the last block is that of the padded message. -/
theorem State.Holds.lengthField_eq (h : s.Holds m) {p k : Nat} (h56 : 56 ≤ p) (hp : p < 64)
    (hk : m.length + 1 + paddingZeros m.length = 64 * k + 56) :
    (s.len >>> (8 * (63 - p))).setWidth 8 = (paddedMessage m).getD (64 * k + p) 0x00#8 := by
  rw [paddedMessage_getD_lengthField (i := p - 56) (by omega) (by omega), h.len,
    show 56 - 8 * (p - 56) = 8 * (63 - p) by omega]

/-- With `CUR ≤ 55` the current block is completed by the whole padding. -/
theorem State.Holds.lastBlock_eq_of_le (h : s.Holds m) (hcur : s.cur.toNat ≤ 55) :
    s.lastBlock = pieceAt (paddedMessage m) (m.length / 64) := by
  have hm := h.cur
  have hz : m.length + 1 + paddingZeros m.length = 64 * (m.length / 64) + 56 := by
    have := add_paddingZeros m.length
    omega
  ext p hp : 1
  rw [s.lastBlock_getElem p hp, pieceAt_getElem]
  split_ifs with h56
  · exact h.tailByte_eq (by omega)
  · exact h.lengthField_eq (by omega) hp hz

/-- With `CUR ≥ 56` the current block is completed by the marker and zeros. -/
theorem State.Holds.markedBlock_eq (h : s.Holds m) (hcur : ¬ s.cur.toNat ≤ 55) :
    s.markedBlock = pieceAt (paddedMessage m) (m.length / 64) := by
  have hm := h.cur
  have hz := add_paddingZeros m.length
  ext p hp : 1
  rw [State.markedBlock, Vector.getElem_ofFn, pieceAt_getElem]
  exact h.tailByte_eq (by omega)

/-- With `CUR ≥ 56` the last block holds zeros and the length field. -/
theorem State.Holds.lastBlock_eq_of_gt (h : s.Holds m) (hcur : ¬ s.cur.toNat ≤ 55) :
    s.lastBlock = pieceAt (paddedMessage m) (m.length / 64 + 1) := by
  have hm := h.cur
  have hz : m.length + 1 + paddingZeros m.length = 64 * (m.length / 64 + 1) + 56 := by
    have := add_paddingZeros m.length
    omega
  ext p hp : 1
  rw [s.lastBlock_getElem p hp, pieceAt_getElem]
  split_ifs with h56
  · rw [paddedMessage_getD_zeros (by omega) (by omega)]
  · exact h.lengthField_eq (by omega) hp hz

/-- The blocks of the padded message after the whole blocks of the message. -/
theorem pieces_paddedMessage (m : List Byte) {r : Nat} (h : (m.length + 8) / 64 + 1 = m.length / 64 + r) :
    pieces (paddedMessage m) =
      pieces m ++ (List.range r).map fun j => pieceAt (paddedMessage m) (m.length / 64 + j) := by
  have hlen : (paddedMessage m).length / 64 = m.length / 64 + r := by
    rw [length_paddedMessage, add_paddingZeros, Nat.mul_div_cancel_left _ (by decide), h]
  rw [paddedMessage_eq_append] at hlen ⊢
  exact pieces_append m _ hlen

/-- Finalization compresses what is left of the padded message (R160, R174, R181). -/
theorem State.Holds.closedH_eq (h : s.Holds m) : s.closedH = messageState m := by
  have hm := h.cur
  rw [State.closedH, messageState]
  split_ifs with hcur
  · rw [pieces_paddedMessage m (r := 1) (by omega), List.foldl_append, ← h.h, h.lastBlock_eq_of_le hcur]
    rfl
  · rw [pieces_paddedMessage m (r := 2) (by omega), List.foldl_append, ← h.h, h.markedBlock_eq hcur,
      h.lastBlock_eq_of_gt hcur]
    rfl

/-- `RESULT` closes the open message and answers its digest (R175). -/
theorem State.Holds.exec_result (h : s.Holds m) :
    ∃ t, exec .result s = .next t ∧ t.h = messageState m ∧ t.computed = true ∧ t.cur = 0#7 ∧ t.len = 0#64 ∧
      t.port = s.port ∧ t.responses = s.responses ++ [⟨.ok, some (messageDigest m)⟩] := by
  have hcur : s.cur.toNat ≤ 63 := by
    rw [h.cur]
    omega
  obtain ⟨u, hu, hframe, -⟩ := s.doFinalize_open h.computed hcur h.written
  have huh : u.h = messageState m := by rw [hframe, ← h.closedH_eq]
  refine ⟨_, execResult_ok hu, huh, ?_, ?_, ?_, ?_, ?_⟩
  · rw [hframe]; rfl
  · rw [hframe]; rfl
  · rw [hframe]; rfl
  · rw [hframe]; rfl
  · rw [State.respond_responses, huh, messageDigest, hframe]

end

/-! ### Messages from any state -/

/-- `INIT` and `INPUTS m` (R92, R171) make the open message `m` of any state. -/
theorem State.accept_init_inputs (s : State) (m : List Byte) :
    ∃ t, s.accept (encode .init :: inputsWords m) = .next t ∧ t.Holds m ∧ t.port = s.port ∧
      t.responses = s.responses ++ List.replicate (m.length + 1) ⟨.ok, none⟩ := by
  obtain ⟨t, ht, hold, hport, hresp⟩ := (s.holds_loadInitial.respond ⟨.ok, none⟩).accept_inputs m
  refine ⟨t, ?_, hold, hport, ?_⟩
  · rw [State.accept_cons, execWord_encode]
    exact ht
  · rw [hresp, List.replicate_succ]
    simp

/-- Settles O44: the counters of the open message `m`. -/
theorem countersCountTheInputs : Obligations.CountersCountTheInputs := by
  intro s m
  obtain ⟨t, ht, hold, hport, -⟩ := s.accept_init_inputs m
  refine ⟨t, ?_, hold.cur, ?_, hold.computed, hport⟩
  · rw [← ht, ← State.run_present, List.length_cons, length_inputsWords]
  · rw [hold.len, BitVec.toNat_ofNat]

/-- Settles O46: `INIT` and `INPUTS m` make the open message `m`, and `RESULT` answers its digest. The bound on the
length is not needed, since `LEN` and the length field of the padded message wrap alike (R182). -/
theorem hashingAMessageGivesItsDigest : Obligations.HashingAMessageGivesItsDigest := by
  intro s m _
  obtain ⟨t, ht, hold, hport, hresp⟩ := s.accept_init_inputs m
  obtain ⟨u, hu, hh, hcomputed, hcur, hlen, hport', hresp'⟩ := hold.exec_result
  refine ⟨u, ?_, hh, hcomputed, hcur, hlen, hport'.trans hport, by rw [hresp', hresp]⟩
  have hlength : (hashWords m).length = m.length + 2 := by
    simp [hashWords, length_inputsWords]
  rw [← hlength, State.run_present, hashWords, State.accept_append, ht, andThen_next, State.accept_cons,
    execWord_encode, hu]
  rfl

/-- Settles O47: chunks are accepted as the whole is; and after `INIT` the whole makes the open message. -/
theorem chunkingDoesNotMatter : Obligations.ChunkingDoesNotMatter := by
  intro s chunks
  refine ⟨s.inputsEach_eq_inputs_flatten chunks, fun _ => ?_⟩
  obtain ⟨u, hu, hold, -, hresp⟩ := s.accept_init_inputs chunks.flatten
  obtain ⟨t, ht, hinputs⟩ := andThen_next_inv hu
  obtain ⟨v, hv, -, -, -, -, -, hresp'⟩ := hold.exec_result
  refine ⟨t, u, v, (execWord_encode .init s).symm.trans ht, ?_, hv, by rw [hresp', hresp]⟩
  rw [State.inputsEach_eq_inputs_flatten, State.inputs_eq_accept, hinputs]

end Sys2Proof.Machine
end
